-- ==== Sys2Proof/Word.lean ====
section
/-! DEFINITION. The two word types of CORE: a byte of data and a 16-bit address (R1). -/

namespace Sys2Proof

/-- A byte of data: a register, a memory byte, an opcode, an operand byte (R1). -/
abbrev Byte := BitVec 8

/-- A 16-bit address, and the program counter (R1, R16). -/
abbrev Addr := BitVec 16

end Sys2Proof
end

