-- ==== Sys2Proof/Syntax.lean ====
section
/-! DEFINITION. Instructions: one constructor for each row of spec/opcode_table.json (R50), carrying its operand
bytes in the order they are fetched (R46, R49). -/

namespace Sys2Proof

/-- The mnemonic families in scope (R67). -/
inductive Family where
  | lda | ldx | ldy | sta | brk
deriving DecidableEq, Repr

/-- The ten addressing-mode tags (R46). -/
inductive Mode where
  | impl | imm | zp | zpx | zpy | abs | absx | absy | indx | indy
deriving DecidableEq, Repr

/-- The number of operand bytes of a mode (R46, R48). -/
def Mode.operandCount : Mode → Nat
  | .impl => 0
  | .imm | .zp | .zpx | .zpy | .indx | .indy => 1
  | .abs | .absx | .absy => 2

/-- The instructions of 6502-CORE-LS. `b` is the one operand byte of format F2; `lo hi` are the two operand bytes of
format F3, the low byte first. -/
inductive Instr where
  | ldaImm  (b : Byte)
  | ldaZp   (b : Byte)
  | ldaZpx  (b : Byte)
  | ldaAbs  (lo hi : Byte)
  | ldaAbsx (lo hi : Byte)
  | ldaAbsy (lo hi : Byte)
  | ldaIndx (b : Byte)
  | ldaIndy (b : Byte)
  | ldxImm  (b : Byte)
  | ldxZp   (b : Byte)
  | ldxZpy  (b : Byte)
  | ldxAbs  (lo hi : Byte)
  | ldxAbsy (lo hi : Byte)
  | ldyImm  (b : Byte)
  | ldyZp   (b : Byte)
  | ldyZpx  (b : Byte)
  | ldyAbs  (lo hi : Byte)
  | ldyAbsx (lo hi : Byte)
  | staZp   (b : Byte)
  | staZpx  (b : Byte)
  | staAbs  (lo hi : Byte)
  | staAbsx (lo hi : Byte)
  | staAbsy (lo hi : Byte)
  | staIndx (b : Byte)
  | staIndy (b : Byte)
  | brk
deriving DecidableEq, Repr

/-- The family of an instruction (R50). -/
def Instr.family : Instr → Family
  | .ldaImm _ | .ldaZp _ | .ldaZpx _ | .ldaAbs _ _ | .ldaAbsx _ _ | .ldaAbsy _ _ | .ldaIndx _ | .ldaIndy _ => .lda
  | .ldxImm _ | .ldxZp _ | .ldxZpy _ | .ldxAbs _ _ | .ldxAbsy _ _ => .ldx
  | .ldyImm _ | .ldyZp _ | .ldyZpx _ | .ldyAbs _ _ | .ldyAbsx _ _ => .ldy
  | .staZp _ | .staZpx _ | .staAbs _ _ | .staAbsx _ _ | .staAbsy _ _ | .staIndx _ | .staIndy _ => .sta
  | .brk => .brk

/-- The addressing mode of an instruction (R50). -/
def Instr.mode : Instr → Mode
  | .brk => .impl
  | .ldaImm _ | .ldxImm _ | .ldyImm _ => .imm
  | .ldaZp _ | .ldxZp _ | .ldyZp _ | .staZp _ => .zp
  | .ldaZpx _ | .ldyZpx _ | .staZpx _ => .zpx
  | .ldxZpy _ => .zpy
  | .ldaAbs _ _ | .ldxAbs _ _ | .ldyAbs _ _ | .staAbs _ _ => .abs
  | .ldaAbsx _ _ | .ldyAbsx _ _ | .staAbsx _ _ => .absx
  | .ldaAbsy _ _ | .ldxAbsy _ _ | .staAbsy _ _ => .absy
  | .ldaIndx _ | .staIndx _ => .indx
  | .ldaIndy _ | .staIndy _ => .indy

/-- The operand bytes of an instruction, in fetch order (R45, R49). -/
def Instr.operands : Instr → List Byte
  | .brk => []
  | .ldaImm b | .ldaZp b | .ldaZpx b | .ldaIndx b | .ldaIndy b
  | .ldxImm b | .ldxZp b | .ldxZpy b
  | .ldyImm b | .ldyZp b | .ldyZpx b
  | .staZp b | .staZpx b | .staIndx b | .staIndy b => [b]
  | .ldaAbs lo hi | .ldaAbsx lo hi | .ldaAbsy lo hi
  | .ldxAbs lo hi | .ldxAbsy lo hi
  | .ldyAbs lo hi | .ldyAbsx lo hi
  | .staAbs lo hi | .staAbsx lo hi | .staAbsy lo hi => [lo, hi]

/-- The length in bytes of an instruction, the opcode byte included (R48). -/
def Instr.length (i : Instr) : Nat := 1 + i.mode.operandCount

end Sys2Proof
end

