-- ==== Sys2Proof/Config.lean ====
section
/-! DEFINITION. The implementation parameters of R2 and the fixed sizes of R1. The three tables P1, P2, P3 are the
fields of `Config`, so that a claim can name the table it rests on; their values, `Sys2Proof.config`, stand in Decode.lean.
P4 (CYC unbounded), P5 (no step while Halted), P6 (power-on equals reset) are built into State and step. -/

namespace Sys2Proof

/-- A row of the mnemonic/addressing-mode table: an opcode byte with its family and mode (R50). -/
structure OpcodeRow where
  opcode : Byte
  family : Family
  mode   : Mode
deriving DecidableEq, Repr

/-- The tables R2 makes parameters of: P1 `OPCODES`, P2 `BaseCycles`, P3 `Penalty`. -/
structure Config where
  /-- P1: the opcode bytes present, with their meaning (R50). -/
  opcodes      : List OpcodeRow
  /-- P2: the base costs; an opcode byte without an entry costs 0 (R51). -/
  cycleTable   : List (Byte × Nat)
  /-- P3: the (family, mode) pairs that pay one extra cycle on a page cross (R68). -/
  penaltyPairs : List (Family × Mode)
deriving DecidableEq, Repr

/-- The number of bytes of memory (R1, R30). -/
def memorySize : Nat := 65536

/-- What an address that memory does not list reads as. DESIGN CHOICE (log entry 1): the spec leaves the initial contents
free (R2 P7, D17). Any contents of the 65536 bytes can be listed, so this fixes no memory but the one of `State.reset`. -/
def unlistedByte : Byte := 0x00

end Sys2Proof
end

