-- ==== Sys2Proof/WellFormed.lean ====
section
/-! DEFINITION. Well-formedness. An assembler line names a family, a mode and operand bytes (R54); it is well formed when
the pair is one the hardware has (R50) and the operand bytes are as many as the mode takes (R48). Every operand VALUE is
legal (R53), and `Instr` has one constructor for each pair, so every `Instr` is well formed. -/

namespace Sys2Proof

/-- An instruction as written: any family, any mode, any operand bytes. -/
structure Written where
  family   : Family
  mode     : Mode
  operands : List Byte
deriving DecidableEq, Repr

/-- The modes each family has (R50); no other pair exists. -/
def Family.modes : Family → List Mode
  | .lda => [.imm, .zp, .zpx, .abs, .absx, .absy, .indx, .indy]
  | .ldx => [.imm, .zp, .zpy, .abs, .absy]
  | .ldy => [.imm, .zp, .zpx, .abs, .absx]
  | .sta => [.zp, .zpx, .abs, .absx, .absy, .indx, .indy]
  | .brk => [.impl]

/-- The check: the pair exists (R50), and the operand bytes are as many as the mode takes (R48). -/
def Written.wellFormed (w : Written) : Bool :=
  w.family.modes.contains w.mode && w.operands.length == w.mode.operandCount

/-- An instruction as its written form. -/
def Instr.written (i : Instr) : Written := ⟨i.family, i.mode, i.operands⟩

/-- An instruction is well formed when its written form is. -/
def Instr.wellFormed (i : Instr) : Bool := i.written.wellFormed

end Sys2Proof
end

