-- ==== Sys2Proof/Decode.lean ====
section
/-! DEFINITION. The instruction decoder: the tables of R50, R51 and R68, the lookup of an opcode byte (R47, R65), decoding of
bytes, and the encoder. -/

namespace Sys2Proof

/-! ## The tables -/

/-- `OPCODES`, the LDA rows (R50). -/
def ldaRows : List OpcodeRow :=
  [⟨0xA9, .lda, .imm⟩, ⟨0xA5, .lda, .zp⟩, ⟨0xB5, .lda, .zpx⟩, ⟨0xAD, .lda, .abs⟩,
   ⟨0xBD, .lda, .absx⟩, ⟨0xB9, .lda, .absy⟩, ⟨0xA1, .lda, .indx⟩, ⟨0xB1, .lda, .indy⟩]

/-- `OPCODES`, the LDX rows (R50). -/
def ldxRows : List OpcodeRow :=
  [⟨0xA2, .ldx, .imm⟩, ⟨0xA6, .ldx, .zp⟩, ⟨0xB6, .ldx, .zpy⟩, ⟨0xAE, .ldx, .abs⟩, ⟨0xBE, .ldx, .absy⟩]

/-- `OPCODES`, the LDY rows (R50). -/
def ldyRows : List OpcodeRow :=
  [⟨0xA0, .ldy, .imm⟩, ⟨0xA4, .ldy, .zp⟩, ⟨0xB4, .ldy, .zpx⟩, ⟨0xAC, .ldy, .abs⟩, ⟨0xBC, .ldy, .absx⟩]

/-- `OPCODES`, the STA rows (R50). -/
def staRows : List OpcodeRow :=
  [⟨0x85, .sta, .zp⟩, ⟨0x95, .sta, .zpx⟩, ⟨0x8D, .sta, .abs⟩, ⟨0x9D, .sta, .absx⟩,
   ⟨0x99, .sta, .absy⟩, ⟨0x81, .sta, .indx⟩, ⟨0x91, .sta, .indy⟩]

/-- `OPCODES`, the 26 rows (R50). -/
def opcodeRows : List OpcodeRow := ldaRows ++ ldxRows ++ ldyRows ++ staRows ++ [⟨0x00, .brk, .impl⟩]

/-- `BaseCycles` (R51): no byte outside `OPCODES` has an entry. -/
def baseCycleRows : List (Byte × Nat) :=
  [(0xA9, 2), (0xA5, 3), (0xB5, 4), (0xAD, 4), (0xBD, 4), (0xB9, 4), (0xA1, 6), (0xB1, 5)] ++
  [(0xA2, 2), (0xA6, 3), (0xB6, 4), (0xAE, 4), (0xBE, 4)] ++
  [(0xA0, 2), (0xA4, 3), (0xB4, 4), (0xAC, 4), (0xBC, 4)] ++
  [(0x85, 3), (0x95, 4), (0x8D, 4), (0x9D, 5), (0x99, 5), (0x81, 6), (0x91, 6)] ++
  [(0x00, 7)]

/-- `Penalty`: exactly these five pairs (R68, C3). -/
def penaltyRows : List (Family × Mode) :=
  [(.lda, .absx), (.lda, .absy), (.lda, .indy), (.ldx, .absy), (.ldy, .absx)]

/-- The configuration of this hardware (R2: the values taken for P1, P2, P3). -/
def config : Config := ⟨opcodeRows, baseCycleRows, penaltyRows⟩

/-- `Decode(op)` of R65: the row's pair, or absent. -/
def Config.decodePair (c : Config) (op : Byte) : Option (Family × Mode) :=
  (c.opcodes.find? (fun r => r.opcode == op)).map (fun r => (r.family, r.mode))

/-- `BaseCycles(op)` of R51, 0 where the byte has no entry. -/
def Config.baseCycles (c : Config) (op : Byte) : Nat := (c.cycleTable.lookup op).getD 0

/-- `Penalty(family, mode)` of R68. -/
def Config.penalty (c : Config) (f : Family) (m : Mode) : Bool := c.penaltyPairs.contains (f, m)

/-! ## Decoding -/

/-- What is still to be fetched once the opcode byte is known: the three formats of R46. -/
inductive Form where
  | f1 (i : Instr)
  | f2 (mk : Byte → Instr)
  | f3 (mk : Byte → Byte → Instr)

/-- The instruction a (family, mode) pair names; absent for the pairs the hardware does not have (R50). -/
def formOf : Family → Mode → Option Form
  | .lda, .imm => some (.f2 .ldaImm)
  | .lda, .zp => some (.f2 .ldaZp)
  | .lda, .zpx => some (.f2 .ldaZpx)
  | .lda, .abs => some (.f3 .ldaAbs)
  | .lda, .absx => some (.f3 .ldaAbsx)
  | .lda, .absy => some (.f3 .ldaAbsy)
  | .lda, .indx => some (.f2 .ldaIndx)
  | .lda, .indy => some (.f2 .ldaIndy)
  | .ldx, .imm => some (.f2 .ldxImm)
  | .ldx, .zp => some (.f2 .ldxZp)
  | .ldx, .zpy => some (.f2 .ldxZpy)
  | .ldx, .abs => some (.f3 .ldxAbs)
  | .ldx, .absy => some (.f3 .ldxAbsy)
  | .ldy, .imm => some (.f2 .ldyImm)
  | .ldy, .zp => some (.f2 .ldyZp)
  | .ldy, .zpx => some (.f2 .ldyZpx)
  | .ldy, .abs => some (.f3 .ldyAbs)
  | .ldy, .absx => some (.f3 .ldyAbsx)
  | .sta, .zp => some (.f2 .staZp)
  | .sta, .zpx => some (.f2 .staZpx)
  | .sta, .abs => some (.f3 .staAbs)
  | .sta, .absx => some (.f3 .staAbsx)
  | .sta, .absy => some (.f3 .staAbsy)
  | .sta, .indx => some (.f2 .staIndx)
  | .sta, .indy => some (.f2 .staIndy)
  | .brk, .impl => some (.f1 .brk)
  | _, _ => none

/-- The format of an opcode byte; absent for an unknown opcode (R52, R65). -/
def decodeOpcode (op : Byte) : Option Form :=
  (config.decodePair op).bind (fun fm => formOf fm.1 fm.2)

/-- Why bytes are no instruction. -/
inductive DecodeError where
  /-- There is no byte at all. -/
  | noBytes
  /-- The first byte is not in `OPCODES` (R52). The machine runs it as the unknown-opcode step (R131). -/
  | unknownOpcode (op : Byte)
  /-- The opcode is known and its operand bytes are missing. Fetching from memory never meets this. -/
  | truncated (op : Byte)
deriving DecidableEq, Repr

/-- The answer of the decoder: an instruction with the bytes after it, or a rejection by name. -/
inductive Decoded where
  | instr (i : Instr) (rest : List Byte)
  | reject (e : DecodeError)
deriving DecidableEq, Repr

/-- Decode the instruction at the head of a list of bytes, lowest address first (R45, R46). Total on any bytes. -/
def decode : List Byte → Decoded
  | [] => .reject .noBytes
  | op :: bs =>
    match decodeOpcode op, bs with
    | none, _ => .reject (.unknownOpcode op)
    | some (.f1 i), rest => .instr i rest
    | some (.f2 build), b :: rest => .instr (build b) rest
    | some (.f3 build), lo :: hi :: rest => .instr (build lo hi) rest
    | some (.f2 _), [] => .reject (.truncated op)
    | some (.f3 _), [] => .reject (.truncated op)
    | some (.f3 _), [_] => .reject (.truncated op)

/-! ## Encoding -/

/-- The bytes of an instruction, lowest address first, from the encodings of R101 to R118, R121 to R127 and R130. -/
def encode : Instr → List Byte
  | .ldaImm b => [0xA9, b]
  | .ldaZp b => [0xA5, b]
  | .ldaZpx b => [0xB5, b]
  | .ldaAbs lo hi => [0xAD, lo, hi]
  | .ldaAbsx lo hi => [0xBD, lo, hi]
  | .ldaAbsy lo hi => [0xB9, lo, hi]
  | .ldaIndx b => [0xA1, b]
  | .ldaIndy b => [0xB1, b]
  | .ldxImm b => [0xA2, b]
  | .ldxZp b => [0xA6, b]
  | .ldxZpy b => [0xB6, b]
  | .ldxAbs lo hi => [0xAE, lo, hi]
  | .ldxAbsy lo hi => [0xBE, lo, hi]
  | .ldyImm b => [0xA0, b]
  | .ldyZp b => [0xA4, b]
  | .ldyZpx b => [0xB4, b]
  | .ldyAbs lo hi => [0xAC, lo, hi]
  | .ldyAbsx lo hi => [0xBC, lo, hi]
  | .staZp b => [0x85, b]
  | .staZpx b => [0x95, b]
  | .staAbs lo hi => [0x8D, lo, hi]
  | .staAbsx lo hi => [0x9D, lo, hi]
  | .staAbsy lo hi => [0x99, lo, hi]
  | .staIndx b => [0x81, b]
  | .staIndy b => [0x91, b]
  | .brk => [0x00]

/-! ## Instructions numbered as the opcode table numbers their bits -/

/-- The three bytes of an instruction of `nbits` bits `w`, the first byte in bits 7..0; the bits above `nbits` are 0. -/
def tableWordBytes (nbits w : Nat) : List Byte :=
  let v := w % 2 ^ nbits
  [BitVec.ofNat 8 v, BitVec.ofNat 8 (v / 256), BitVec.ofNat 8 (v / 65536)]

/-- The instruction the decoder reads from such a word; `none` where it rejects. -/
def decodeTableWord (nbits w : Nat) : Option Instr :=
  match decode (tableWordBytes nbits w) with
  | .instr i _ => some i
  | .reject _ => none

end Sys2Proof
end

