-- ==== Sys2Proof/Machine/Alu.lean ====
section
/-! DEFINITION. The ALU (R75): ADD8, ADD16, PAGECMP and NZ; and how two bytes make an address (R4, R33). -/

namespace Sys2Proof.Machine

/-- `{h, l}` of R4: the high byte and the low byte of a 16-bit value. -/
def pair (hi lo : Byte) : Addr := hi ++ lo

/-- `zext_16(b)` of R4. -/
def zext16 (b : Byte) : Addr := b.setWidth 16

/-- The page of an address, its bits 15..8 (R4). -/
def page (a : Addr) : Byte := a.extractLsb' 8 8

/-- ADD8, `a +8 b`: the carry out of bit 7 is discarded (R76). -/
def add8 (a b : Byte) : Byte := a + b

/-- ADD16, `a +16 b`: the byte is zero-extended and the carry out of bit 15 discarded (R77). -/
def add16 (a : Addr) (b : Byte) : Addr := a + zext16 b

/-- PAGECMP: the high bytes differ (R78). -/
def pageCmp (before after : Addr) : Bool := page before != page after

/-- The two outputs of NZ: `z = (v == 0)` and `n = v[7]` (R79). -/
structure ZN where
  z : Bool
  n : Bool
deriving DecidableEq, Repr

/-- NZ (R79). -/
def nz (v : Byte) : ZN := ⟨v == 0, v.getLsbD 7⟩

end Sys2Proof.Machine
end

