-- ==== Sys2Proof/Machine/State.lean ====
section
/-! DEFINITION. The state of CORE with its memory, the reasons a step stops, and the state after reset (R10, R25, R30). -/

namespace Sys2Proof.Machine

/-- The bytes of memory that differ from `unlistedByte`, by rising address (R30). The canonical form is `Memory.wf`. -/
abbrev Memory := List Host.Cell

/-- An opcode byte with the address it was fetched from (R72, R131). -/
structure OpcodeAt where
  opcode  : Byte
  address : Addr
deriving DecidableEq, Repr

/-- The output ports about the step just completed (R73). They are outputs, not state of CORE: every step sets both and
nothing reads them. `none` in `diag` is `diag_valid = 0`; `none` in `trace` says no step has completed since reset. -/
structure Outputs where
  /-- The unknown-opcode report, `diag_opcode` and `diag_at` (R131, R141). -/
  diag  : Option OpcodeAt
  /-- The opcode of the step and its address, `trace_opcode` and `trace_at` (R72). -/
  trace : Option OpcodeAt
deriving DecidableEq, Repr

/-- The seven state items of CORE (R10), memory (R30), and the model's own record of the output ports. -/
structure State where
  /-- The accumulator (R11). -/
  a   : Byte
  /-- An index register (R12). -/
  x   : Byte
  /-- An index register (R13). -/
  y   : Byte
  /-- The stack pointer, unused beyond reset (R14). -/
  sp  : Byte
  /-- The program counter (R16). -/
  pc  : Addr
  /-- The status register, flags N V U B D I Z C from bit 7 to bit 0 (R17). -/
  sr  : Byte
  /-- The cycle counter, an unbounded natural (R22, D5). -/
  cyc : Nat
  /-- The memory at the port (R30). -/
  mem : Memory
  /-- The model's own field: the output ports of the step just completed (R73; log entry 3). -/
  out : Outputs
deriving DecidableEq, Repr

/-- Why the machine stops. CORE has no fault (R140). -/
inductive Fault where
  /-- Raised by `step` on a Halted engine, where no step is enabled (R60, D7, U3): the stuck state that ends a run.
  Safe: the model has no run past a BRK (log entry 2). -/
  | halted
deriving DecidableEq, Repr

/-- Why the model gives an instruction no meaning. -/
inductive Refusal where
  /-- Raised by an arm of `exec` whose instruction has no meaning yet. Safe. No arm raises it. -/
  | notModelled (mnemonic : String)
deriving DecidableEq, Repr

/-- The state right after reset (R25, R160), which is also the power-on state (R26, D8). Memory lists nothing: the reset
operation does not write memory and its contents are the loader's (R41, R42; log entries 1 and 6). -/
def State.reset : State :=
  { a := 0x00, x := 0x00, y := 0x00, sp := 0xFD, pc := 0xFFFC, sr := 0x24, cyc := 0,
    mem := [], out := { diag := none, trace := none } }

end Sys2Proof.Machine
end

