-- ==== Sys2Proof/Machine/Flags.lean ====
section
/-! DEFINITION. The flag register: masks, the one read and the one write primitive (R17 to R19), the flags of a load (R100),
and the engine state as a function of B (R24). -/

namespace Sys2Proof.Machine

/-- The eight flags, from bit 7 to bit 0 (R17). -/
inductive Flag where
  | n | v | u | b | d | i | z | c
deriving DecidableEq, Repr

/-- The bit of SR each flag is (R17). -/
def Flag.mask : Flag → Byte
  | .n => 0x80
  | .v => 0x40
  | .u => 0x20
  | .b => 0x10
  | .d => 0x08
  | .i => 0x04
  | .z => 0x02
  | .c => 0x01

/-- `get_flag(f)` (R18). -/
def getFlag (sr : Byte) (f : Flag) : Bool := (sr &&& f.mask) != 0

/-- `set_flag(f, b)`, the only way an instruction changes SR (R19). -/
def setFlag (sr : Byte) (f : Flag) (b : Bool) : Byte :=
  if b then sr ||| f.mask else sr &&& (0xFF - f.mask)

/-- One flag of a state. -/
def State.flag (s : State) (f : Flag) : Bool := getFlag s.sr f

/-- `SR.f <- b` (R4, R19). -/
def State.setFlag (s : State) (f : Flag) (b : Bool) : State := { s with sr := Machine.setFlag s.sr f b }

/-- `SR.Z <- (v == 0); SR.N <- v[7]`, the two flag updates of a load (R79, R100). -/
def State.setZN (s : State) (v : Byte) : State := (s.setFlag .z (nz v).z).setFlag .n (nz v).n

/-- Halted is `SR.B == 1` and Running is `SR.B == 0` (R24, D6); the output port `halted` (R73). -/
def State.halted (s : State) : Bool := s.flag .b

/-- The eight flag bits in the fixed order N V U B D I Z C, for the observer (R27, R149). -/
def State.flagBits (s : State) : List Bool := [Flag.n, .v, .u, .b, .d, .i, .z, .c].map s.flag

end Sys2Proof.Machine
end

