-- ==== Sys2Proof/Machine/Ops.lean ====
section
/-! DEFINITION. The named operations over memory, registers, PC and CYC; the transition to Halted, which is the whole of trap
entry here (R145), and the reset operation, the one way back (R146, R160). -/

namespace Sys2Proof.Machine

/-! ## The memory port (R30 to R32) -/

/-- The byte listed at a key, else `unlistedByte`. -/
def Memory.lookup : Memory → Nat → Byte
  | [], _ => unlistedByte
  | c :: m, k => if c.1 = k then c.2 else Memory.lookup m k

/-- List a byte at its place by rising address. -/
def Memory.insert : Memory → Nat → Byte → Memory
  | [], k, v => [(k, v)]
  | c :: m, k, v => if k < c.1 then (k, v) :: c :: m else c :: Memory.insert m k v

/-- Take the byte at a key off the list. -/
def Memory.erase (m : Memory) (k : Nat) : Memory := m.filter (fun c => c.1 != k)

/-- `MemRead(addr, 1)`: the address is taken modulo the memory size (R5, R31). -/
def Memory.read (m : Memory) (addr : Nat) : Byte := Memory.lookup m (addr % memorySize)

/-- `MemWrite(addr, 1, v)`: that one byte changes and no other (R5, R31, R32). -/
def Memory.write (m : Memory) (addr : Nat) (v : Byte) : Memory :=
  if v = unlistedByte then Memory.erase m (addr % memorySize)
  else Memory.insert (Memory.erase m (addr % memorySize)) (addr % memorySize) v

/-- The canonical form: addresses strictly rising, each below the memory size, no byte that need not be listed. Two
memories in this form that read alike are equal data. -/
abbrev Memory.wf (m : Memory) : Prop :=
  m.Pairwise (fun c d => c.1 < d.1) ∧ ∀ c ∈ m, c.1 < memorySize ∧ c.2 ≠ unlistedByte

/-- `M[addr]` of a 16-bit address (R4, R30). -/
def State.read (s : State) (addr : Addr) : Byte := Memory.read s.mem addr.toNat

/-- `M[addr] <- v` of a 16-bit address. -/
def State.write (s : State) (addr : Addr) (v : Byte) : State := { s with mem := Memory.write s.mem addr.toNat v }

/-- A pointer in page 0: the low byte at `p`, the high byte at `p +8 1`, so that it wraps inside the page (R33, R87, R88). -/
def State.readPointer (s : State) (p : Byte) : Addr :=
  pair (s.read (zext16 (add8 p 1))) (s.read (zext16 p))

/-! ## The registers a load writes (R11 to R13, R15) -/

/-- The registers an instruction can name (R15). -/
inductive Reg where
  | a | x | y
deriving DecidableEq, Repr

/-- Read a register. -/
def State.reg (s : State) : Reg → Byte
  | .a => s.a
  | .x => s.x
  | .y => s.y

/-- Write a register. -/
def State.setReg (s : State) : Reg → Byte → State
  | .a, v => { s with a := v }
  | .x, v => { s with x := v }
  | .y, v => { s with y := v }

/-! ## Fetching and charging -/

/-- `FetchByte()`: the byte at PC, and PC moved on by one with wraparound (R62, R63). -/
def State.fetchByte (s : State) : Byte × State := (s.read s.pc, { s with pc := add16 s.pc 1 })

/-- `CYC <- CYC + n`, on naturals (R22, R66). -/
def State.charge (s : State) (n : Nat) : State := { s with cyc := s.cyc + n }

/-- The page-cross charge at the end of a step: one cycle where the address crossed a page and the pair pays (R61, R68). -/
def State.chargePenalty (s : State) (f : Family) (m : Mode) (crossed : Bool) : State :=
  if crossed && config.penalty f m then s.charge 1 else s

/-! ## Halting and reset -/

/-- Running to Halted: `SR.B <- 1`. Nothing is saved and control goes nowhere (R130, R145). -/
def State.halt (s : State) : State := s.setFlag .b true

/-- The reset operation: one assignment of the whole state of CORE, independent of the state before (R160, R161). Memory
is not touched (R41, R162). The output ports say that no step has completed since (log entry 4). -/
def State.applyReset (s : State) : State :=
  { a := 0x00, x := 0x00, y := 0x00, sp := 0xFD, pc := 0xFFFC, sr := 0x24, cyc := 0,
    mem := s.mem, out := { diag := none, trace := none } }

end Sys2Proof.Machine
end

