-- ==== Sys2Proof/Machine/Brk.lean ====
section
/-! DEFINITION. BRK, the halt instruction (R130). -/

namespace Sys2Proof.Machine

/-- `BRK`: sets B and nothing else; the engine is then Halted (R130, R145). -/
def execBrk (s : State) : Host.Outcome State Fault Refusal := .next s.halt

end Sys2Proof.Machine
end

