-- ==== Sys2Proof/Machine/Operands.lean ====
section
/-! DEFINITION. The addressing-mode resolver (R80 to R90): one definition for each mode that names memory, applied to the
operand bytes and to the state after they were fetched. X and Y have the values of the start of the step (R93). The mode
IMM has no address: its value is the operand byte (R80). IMPL has neither (R89). -/

namespace Sys2Proof.Machine

/-- An effective address with its page-cross flag: the fields `address` and `crossed` of R90. -/
structure Resolved where
  address : Addr
  crossed : Bool
deriving DecidableEq, Repr

/-- A base address plus an index: crossed when the high byte changes (R78, R85, R86, R88). -/
def indexed (base : Addr) (index : Byte) : Resolved :=
  ⟨add16 base index, pageCmp base (add16 base index)⟩

/-- ZP (R81). -/
def resolveZp (b : Byte) : Resolved := ⟨zext16 b, false⟩

/-- ZPX: the sum wraps inside page 0 (R82). -/
def resolveZpx (b : Byte) (s : State) : Resolved := ⟨zext16 (add8 b s.x), false⟩

/-- ZPY: the sum wraps inside page 0 (R83). -/
def resolveZpy (b : Byte) (s : State) : Resolved := ⟨zext16 (add8 b s.y), false⟩

/-- ABS (R84). -/
def resolveAbs (lo hi : Byte) : Resolved := ⟨pair hi lo, false⟩

/-- ABSX (R85). -/
def resolveAbsx (lo hi : Byte) (s : State) : Resolved := indexed (pair hi lo) s.x

/-- ABSY (R86). -/
def resolveAbsy (lo hi : Byte) (s : State) : Resolved := indexed (pair hi lo) s.y

/-- INDX: X is added to the pointer's location, and no cross is reported (R87). -/
def resolveIndx (b : Byte) (s : State) : Resolved := ⟨s.readPointer (add8 b s.x), false⟩

/-- INDY: Y is added to the pointer (R88). -/
def resolveIndy (b : Byte) (s : State) : Resolved := indexed (s.readPointer b) s.y

end Sys2Proof.Machine
end

