-- ==== Sys2Proof/Machine/Effects.lean ====
section
/-! DEFINITION. The two effects that the instructions of a family share: a load (R100) and a store (R120). Each ends with the
page-cross charge of R68, which the penalty table decides. -/

namespace Sys2Proof.Machine

/-- Load the value `v` into `r` and set Z and N from it (R100); then the charge of R68. -/
def load (f : Family) (m : Mode) (r : Reg) (v : Byte) (crossed : Bool) (s : State) : Host.Outcome State Fault Refusal :=
  .next (((s.setReg r v).setZN v).chargePenalty f m crossed)

/-- Load the byte at an effective address (R92, R100). -/
def loadFrom (f : Family) (m : Mode) (r : Reg) (ea : Resolved) (s : State) : Host.Outcome State Fault Refusal :=
  load f m r (s.read ea.address) ea.crossed s

/-- Store A at an effective address; no flag changes and nothing is read there (R120). The charge of R68 follows, and the
penalty table has no STA row. -/
def storeA (m : Mode) (ea : Resolved) (s : State) : Host.Outcome State Fault Refusal :=
  .next ((s.write ea.address s.a).chargePenalty .sta m ea.crossed)

end Sys2Proof.Machine
end

