-- ==== Sys2Proof/Machine/Lda.lean ====
section
/-! DEFINITION. LDA in its eight modes (R101 to R108). Every meaning starts after the step has fetched the instruction's bytes
and charged its base cost (R61, 42_loads.md). -/

namespace Sys2Proof.Machine

/-- `LDA #$nn` (R101). -/
def execLdaImm (b : Byte) (s : State) : Host.Outcome State Fault Refusal := load .lda .imm .a b false s

/-- `LDA $nn` (R102). -/
def execLdaZp (b : Byte) (s : State) : Host.Outcome State Fault Refusal := loadFrom .lda .zp .a (resolveZp b) s

/-- `LDA $nn,X` (R103). -/
def execLdaZpx (b : Byte) (s : State) : Host.Outcome State Fault Refusal := loadFrom .lda .zpx .a (resolveZpx b s) s

/-- `LDA $hhll` (R104). -/
def execLdaAbs (lo hi : Byte) (s : State) : Host.Outcome State Fault Refusal := loadFrom .lda .abs .a (resolveAbs lo hi) s

/-- `LDA $hhll,X` (R105). -/
def execLdaAbsx (lo hi : Byte) (s : State) : Host.Outcome State Fault Refusal :=
  loadFrom .lda .absx .a (resolveAbsx lo hi s) s

/-- `LDA $hhll,Y` (R106). -/
def execLdaAbsy (lo hi : Byte) (s : State) : Host.Outcome State Fault Refusal :=
  loadFrom .lda .absy .a (resolveAbsy lo hi s) s

/-- `LDA ($nn,X)` (R107). -/
def execLdaIndx (b : Byte) (s : State) : Host.Outcome State Fault Refusal := loadFrom .lda .indx .a (resolveIndx b s) s

/-- `LDA ($nn),Y` (R108). -/
def execLdaIndy (b : Byte) (s : State) : Host.Outcome State Fault Refusal := loadFrom .lda .indy .a (resolveIndy b s) s

end Sys2Proof.Machine
end

