-- ==== Sys2Proof/Machine/Ldx.lean ====
section
/-! DEFINITION. LDX in its five modes (R109 to R113). -/

namespace Sys2Proof.Machine

/-- `LDX #$nn` (R109). -/
def execLdxImm (b : Byte) (s : State) : Host.Outcome State Fault Refusal := load .ldx .imm .x b false s

/-- `LDX $nn` (R110). -/
def execLdxZp (b : Byte) (s : State) : Host.Outcome State Fault Refusal := loadFrom .ldx .zp .x (resolveZp b) s

/-- `LDX $nn,Y` (R111). -/
def execLdxZpy (b : Byte) (s : State) : Host.Outcome State Fault Refusal := loadFrom .ldx .zpy .x (resolveZpy b s) s

/-- `LDX $hhll` (R112). -/
def execLdxAbs (lo hi : Byte) (s : State) : Host.Outcome State Fault Refusal := loadFrom .ldx .abs .x (resolveAbs lo hi) s

/-- `LDX $hhll,Y` (R113). -/
def execLdxAbsy (lo hi : Byte) (s : State) : Host.Outcome State Fault Refusal :=
  loadFrom .ldx .absy .x (resolveAbsy lo hi s) s

end Sys2Proof.Machine
end

