-- ==== Sys2Proof/Machine/Ldy.lean ====
section
/-! DEFINITION. LDY in its five modes (R114 to R118). -/

namespace Sys2Proof.Machine

/-- `LDY #$nn` (R114). -/
def execLdyImm (b : Byte) (s : State) : Host.Outcome State Fault Refusal := load .ldy .imm .y b false s

/-- `LDY $nn` (R115). -/
def execLdyZp (b : Byte) (s : State) : Host.Outcome State Fault Refusal := loadFrom .ldy .zp .y (resolveZp b) s

/-- `LDY $nn,X` (R116). -/
def execLdyZpx (b : Byte) (s : State) : Host.Outcome State Fault Refusal := loadFrom .ldy .zpx .y (resolveZpx b s) s

/-- `LDY $hhll` (R117). -/
def execLdyAbs (lo hi : Byte) (s : State) : Host.Outcome State Fault Refusal := loadFrom .ldy .abs .y (resolveAbs lo hi) s

/-- `LDY $hhll,X` (R118). -/
def execLdyAbsx (lo hi : Byte) (s : State) : Host.Outcome State Fault Refusal :=
  loadFrom .ldy .absx .y (resolveAbsx lo hi s) s

end Sys2Proof.Machine
end

