-- ==== Sys2Proof/Machine/Sta.lean ====
section
/-! DEFINITION. STA in its seven modes (R121 to R127). -/

namespace Sys2Proof.Machine

/-- `STA $nn` (R121). -/
def execStaZp (b : Byte) (s : State) : Host.Outcome State Fault Refusal := storeA .zp (resolveZp b) s

/-- `STA $nn,X` (R122). -/
def execStaZpx (b : Byte) (s : State) : Host.Outcome State Fault Refusal := storeA .zpx (resolveZpx b s) s

/-- `STA $hhll` (R123). -/
def execStaAbs (lo hi : Byte) (s : State) : Host.Outcome State Fault Refusal := storeA .abs (resolveAbs lo hi) s

/-- `STA $hhll,X` (R124). -/
def execStaAbsx (lo hi : Byte) (s : State) : Host.Outcome State Fault Refusal := storeA .absx (resolveAbsx lo hi s) s

/-- `STA $hhll,Y` (R125). -/
def execStaAbsy (lo hi : Byte) (s : State) : Host.Outcome State Fault Refusal := storeA .absy (resolveAbsy lo hi s) s

/-- `STA ($nn,X)` (R126). -/
def execStaIndx (b : Byte) (s : State) : Host.Outcome State Fault Refusal := storeA .indx (resolveIndx b s) s

/-- `STA ($nn),Y` (R127). -/
def execStaIndy (b : Byte) (s : State) : Host.Outcome State Fault Refusal := storeA .indy (resolveIndy b s) s

end Sys2Proof.Machine
end

