-- ==== Sys2Proof/Machine/Fetch.lean ====
section
/-! DEFINITION. The fetch unit (R61, R62, R64, R66): the opcode byte, the base charge, the operand bytes; and the step of an
unknown opcode (R131). -/

namespace Sys2Proof.Machine

/-- What a step has fetched: an instruction, or an opcode byte that is none. -/
inductive Fetched where
  | known (i : Instr)
  | unknown (op : Byte)
deriving DecidableEq, Repr

/-- The start of a step: fetch the opcode, charge its base cost, and put opcode and address on the trace ports
(R61, R64, R66, R72). -/
def State.beginStep (s : State) : Byte × State :=
  let (op, s1) := s.fetchByte
  (op, { s1.charge (config.baseCycles op) with out := { diag := none, trace := some ⟨op, s.pc⟩ } })

/-- Fetch one whole instruction: every operand byte of a known opcode through `FetchByte()`, low byte first; an unknown
opcode has none (R46, R48, R49, R62). -/
def State.fetch (s : State) : Fetched × State :=
  let (op, s1) := s.beginStep
  match decodeOpcode op with
  | none => (.unknown op, s1)
  | some (.f1 i) => (.known i, s1)
  | some (.f2 build) =>
    let (b, s2) := s1.fetchByte
    (.known (build b), s2)
  | some (.f3 build) =>
    let (lo, s2) := s1.fetchByte
    let (hi, s3) := s2.fetchByte
    (.known (build lo hi), s3)

/-- `emit UnknownOpcode(op, at)`: the report to the diagnostics sink, on the `diag` ports; nothing else changes (R131). -/
def State.emitUnknownOpcode (s : State) (op : Byte) (addr : Addr) : State :=
  { s with out := { s.out with diag := some ⟨op, addr⟩ } }

/-- The rest of the step of an unknown opcode fetched from `addr`: the report, and the engine goes on (R131, R141). -/
def unknownOpcode (op : Byte) (addr : Addr) (s : State) : Host.Outcome State Fault Refusal :=
  .next (s.emitUnknownOpcode op addr)

/-- Write bytes at ascending addresses from `addr` on, wrapping (R31): what the loader does (R42, R165). -/
def State.loadBytes (s : State) (addr : Addr) : List Byte → State
  | [] => s
  | b :: bs => (s.write addr b).loadBytes (add16 addr 1) bs

end Sys2Proof.Machine
end

