-- ==== Sys2Proof/Machine/Step.lean ====
section
/-! DEFINITION. One step (R61), and placing an instruction where the next step fetches it. -/

namespace Sys2Proof.Machine

/-- One step request. A Running engine performs one fetch-decode-execute (R61); for a Halted one no step is enabled and the
run is over (R60, D7, U3; log entry 2). -/
def step (s : State) : Host.Outcome State Fault Refusal :=
  if s.halted then .fault .halted
  else
    match s.fetch with
    | (.known i, s') => exec i s'
    | (.unknown op, s') => unknownOpcode op s.pc s'

/-- The state with an instruction of `nbits` bits `w`, numbered as spec/opcode_table.json numbers them, written at PC.
Nothing but memory changes. -/
def State.withFetchWord (s : State) (nbits w : Nat) : State := s.loadBytes s.pc (tableWordBytes nbits w)

end Sys2Proof.Machine
end

