-- ==== Sys2Proof/Machine/Accesses.lean ====
section
/-! DEFINITION. The memory accesses of one step, in order, as the memory port shows them (R73, R91, D14). They are outputs of a
step, computed from the state before it. -/

namespace Sys2Proof.Machine

/-- One access at the memory port: `mem_we = 0`, or `mem_we = 1` with `mem_wdata` (R73). -/
inductive Access where
  | read (addr : Addr)
  | write (addr : Addr) (v : Byte)
deriving DecidableEq, Repr

/-- `n` reads by `FetchByte()` from `addr` on. -/
def codeReads (addr : Addr) : Nat → List Access
  | 0 => []
  | n + 1 => .read addr :: codeReads (add16 addr 1) n

/-- The two reads of a pointer in page 0, low byte first (R87, R88, R91). -/
def pointerReads (p : Byte) : List Access := [.read (zext16 p), .read (zext16 (add8 p 1))]

/-- The reads and the write of an instruction after its bytes are fetched: pointer reads, then the data read L of a load or
the data write S of a store (R91). -/
def operandAccesses (i : Instr) (s : State) : List Access :=
  match i with
  | .ldaImm _ | .ldxImm _ | .ldyImm _ | .brk => []
  | .ldaZp b | .ldxZp b | .ldyZp b => [.read (resolveZp b).address]
  | .ldaZpx b | .ldyZpx b => [.read (resolveZpx b s).address]
  | .ldxZpy b => [.read (resolveZpy b s).address]
  | .ldaAbs lo hi | .ldxAbs lo hi | .ldyAbs lo hi => [.read (resolveAbs lo hi).address]
  | .ldaAbsx lo hi | .ldyAbsx lo hi => [.read (resolveAbsx lo hi s).address]
  | .ldaAbsy lo hi | .ldxAbsy lo hi => [.read (resolveAbsy lo hi s).address]
  | .ldaIndx b => pointerReads (add8 b s.x) ++ [.read (resolveIndx b s).address]
  | .ldaIndy b => pointerReads b ++ [.read (resolveIndy b s).address]
  | .staZp b => [.write (resolveZp b).address s.a]
  | .staZpx b => [.write (resolveZpx b s).address s.a]
  | .staAbs lo hi => [.write (resolveAbs lo hi).address s.a]
  | .staAbsx lo hi => [.write (resolveAbsx lo hi s).address s.a]
  | .staAbsy lo hi => [.write (resolveAbsy lo hi s).address s.a]
  | .staIndx b => pointerReads (add8 b s.x) ++ [.write (resolveIndx b s).address s.a]
  | .staIndy b => pointerReads b ++ [.write (resolveIndy b s).address s.a]

/-- All accesses of the step that a Running state takes; a Halted engine makes none (R60, R91). -/
def accesses (s : State) : List Access :=
  if s.halted then []
  else
    match s.fetch with
    | (.unknown _, _) => [.read s.pc]
    | (.known i, s') => codeReads s.pc i.length ++ operandAccesses i s'

end Sys2Proof.Machine
end

