-- ==== Sys2Proof/Machine/Pipeline.lean ====
section
/-! DEFINITION. The step as R61 writes it, driven by the tables of a configuration: Decode, Resolve, Execute and the penalty,
each as its own rule has it. It names no instruction. The machine's `step` goes through one meaning for each instruction;
that the two agree is a statement of the package. -/

namespace Sys2Proof.Machine

/-- The field `kind` of the resolver's record, with the field it makes meaningful (R90). -/
inductive Kind where
  | none
  | value (v : Byte)
  | address (ea : Addr)
deriving DecidableEq, Repr

/-- The record `r` that `Resolve(mode)` returns (R90). -/
structure ResolverRecord where
  kind    : Kind
  crossed : Bool
deriving DecidableEq, Repr

/-- A resolved address as the resolver's record. -/
def Resolved.record (r : Resolved) : ResolverRecord := ⟨.address r.address, r.crossed⟩

/-- `Resolve(mode)`: fetches the operand bytes and returns the record (R80 to R90). -/
def State.resolve (s : State) (m : Mode) : ResolverRecord × State :=
  let (b, s1) := s.fetchByte
  let (hi, s2) := s1.fetchByte
  match m with
  | .impl => (⟨.none, false⟩, s)
  | .imm => (⟨.value b, false⟩, s1)
  | .zp => ((resolveZp b).record, s1)
  | .zpx => ((resolveZpx b s1).record, s1)
  | .zpy => ((resolveZpy b s1).record, s1)
  | .abs => ((resolveAbs b hi).record, s2)
  | .absx => ((resolveAbsx b hi s2).record, s2)
  | .absy => ((resolveAbsy b hi s2).record, s2)
  | .indx => ((resolveIndx b s1).record, s1)
  | .indy => ((resolveIndy b s1).record, s1)

/-- The operand value of a load: the value itself, or the byte at the address (R92); IMPL has none. -/
def State.operandValue (s : State) : Kind → Option Byte
  | .none => none
  | .value v => some v
  | .address ea => some (s.read ea)

/-- A load into a register, where there is an operand value (R67, R100). -/
def State.loadKind (s : State) (r : Reg) (k : Kind) : Option State :=
  (s.operandValue k).map (fun v => (s.setReg r v).setZN v)

/-- `Execute(family, r)`, selected by the family alone (R67). `none` is a pair of family and record the hardware lacks. -/
def State.execute (s : State) (f : Family) (k : Kind) : Option State :=
  match f, k with
  | .lda, k => s.loadKind .a k
  | .ldx, k => s.loadKind .x k
  | .ldy, k => s.loadKind .y k
  | .sta, .address ea => some (s.write ea s.a)
  | .sta, _ => none
  | .brk, _ => some (s.setFlag .b true)

/-- R61's `step()`, from a Running state, under the tables `c`. -/
def pipelineStep (c : Config) (s : State) : Option State :=
  let (op, s1) := s.fetchByte
  let s2 := { s1.charge (c.baseCycles op) with out := { diag := none, trace := some ⟨op, s.pc⟩ } }
  match c.decodePair op with
  | none => some { s2 with out := { s2.out with diag := some ⟨op, s.pc⟩ } }
  | some (f, m) =>
    let (r, s3) := s2.resolve m
    (s3.execute f r.kind).map (fun s4 => if r.crossed && c.penalty f m then s4.charge 1 else s4)

end Sys2Proof.Machine
end

