-- ==== Sys2Proof/Machine/Requests.lean ====
section
/-! DEFINITION. The two requests from outside, presented between steps (R60, R73, R144, R163). -/

namespace Sys2Proof.Machine

/-- Serve `reset_req` and `step_req`: reset first, then one step; a step request while Halted is ignored (R144, R163). -/
def serve (resetReq stepReq : Bool) (s : State) : Host.Outcome State Fault Refusal :=
  let s' := if resetReq then s.applyReset else s
  if stepReq && !s'.halted then step s' else .next s'

end Sys2Proof.Machine
end

