-- ==== Sys2Proof/Safety.lean ====
section
/-! DEFINITION. The terms the statements use: Running states, the bytes of the instruction at PC, what a load and a store leave
behind, the invariant of every reachable state, and reachability. -/

namespace Sys2Proof.Machine

/-! ## Reading a state -/

/-- The engine is Running (R24). -/
abbrev State.Running (s : State) : Prop := s.flag .b = false

/-- The byte `k` places after PC, wrapping: 0 is the opcode, 1 and 2 the operand bytes (R45, R62). -/
def State.code (s : State) (k : Nat) : Byte := s.read (s.pc + BitVec.ofNat 16 k)

/-- The 230 unknown opcode bytes, as R52 lists them. -/
def unknownByte (op : Byte) : Bool :=
  (0x01 ≤ op && op ≤ 0x80) || (0x82 ≤ op && op ≤ 0x84) || (0x86 ≤ op && op ≤ 0x8C) || (0x8E ≤ op && op ≤ 0x90) ||
  (0x92 ≤ op && op ≤ 0x94) || (0x96 ≤ op && op ≤ 0x98) || (0x9A ≤ op && op ≤ 0x9C) || op == 0x9E || op == 0x9F ||
  op == 0xA3 || op == 0xA7 || op == 0xA8 || op == 0xAA || op == 0xAB || op == 0xAF || op == 0xB0 || op == 0xB2 ||
  op == 0xB3 || op == 0xB7 || op == 0xB8 || op == 0xBA || op == 0xBB || op == 0xBF || 0xC0 ≤ op

/-- The opcode bytes of each family, and of each length, as R50 lists them. -/
def ldaBytes : List Byte := [0xA9, 0xA5, 0xB5, 0xAD, 0xBD, 0xB9, 0xA1, 0xB1]
def ldxBytes : List Byte := [0xA2, 0xA6, 0xB6, 0xAE, 0xBE]
def ldyBytes : List Byte := [0xA0, 0xA4, 0xB4, 0xAC, 0xBC]
def staBytes : List Byte := [0x85, 0x95, 0x8D, 0x9D, 0x99, 0x81, 0x91]
def threeByteOpcodes : List Byte := [0x8D, 0x99, 0x9D, 0xAC, 0xAD, 0xAE, 0xB9, 0xBC, 0xBD, 0xBE]

/-- One where adding the index carries out of the base's low byte, which is a page cross (R78); else 0. -/
def crossing (base : Addr) (index : Byte) : Nat := if 256 ≤ base.toNat % 256 + index.toNat then 1 else 0

/-- The page-cross cycle of the step from `s`: one in the five opcodes that pay it, where the index carries (R68, R69, R78). -/
def pageCrossCycle (s : State) : Nat :=
  if s.code 0 ∈ ([0xBD, 0xBC] : List Byte) then crossing (pair (s.code 2) (s.code 1)) s.x
  else if s.code 0 ∈ ([0xB9, 0xBE] : List Byte) then crossing (pair (s.code 2) (s.code 1)) s.y
  else if s.code 0 = 0xB1 then crossing (s.readPointer (s.code 1)) s.y
  else 0

/-- The base costs as R51 sums them up, by mode and family. -/
def costOf : Mode → Family → Nat
  | .imm, _ => 2
  | .zp, _ => 3
  | .zpx, _ | .zpy, _ | .abs, _ => 4
  | .absx, .sta | .absy, .sta => 5
  | .absx, _ | .absy, _ => 4
  | .indx, _ => 6
  | .indy, .sta => 6
  | .indy, _ => 5
  | .impl, _ => 7

/-! ## Effects and frames -/

/-- Every flag but the listed ones is the same in both states. -/
def FlagsKeptBut (fs : List Flag) (s t : State) : Prop := ∀ f, f ∉ fs → t.flag f = s.flag f

/-- What a load of `v` into `r` does to registers, flags and memory (R100): `r` is `v`, Z and N come from `v`, and every
other register, every other flag, SP and memory are unchanged. -/
structure LoadEffect (r : Reg) (v : Byte) (s t : State) : Prop where
  loaded    : t.reg r = v
  zero      : t.flag .z = decide (v = 0)
  negative  : t.flag .n = v.msb
  flags     : FlagsKeptBut [.z, .n] s t
  registers : ∀ q, q ≠ r → t.reg q = s.reg q
  stack     : t.sp = s.sp
  memory    : ∀ b, t.read b = s.read b

/-- What a store of A at `ea` does to registers, flags and memory (R120): that byte becomes A; every other byte, every
register and every flag is unchanged. -/
structure StoreEffect (ea : Addr) (s t : State) : Prop where
  stored    : t.read ea = s.a
  memory    : ∀ b, b ≠ ea → t.read b = s.read b
  registers : ∀ q, t.reg q = s.reg q
  stack     : t.sp = s.sp
  status    : t.sr = s.sr

/-- What BRK does to registers, flags and memory (R130): B is set; everything else is unchanged. -/
structure BreakEffect (s t : State) : Prop where
  halted    : t.halted = true
  flags     : FlagsKeptBut [.b] s t
  registers : ∀ q, t.reg q = s.reg q
  stack     : t.sp = s.sp
  memory    : ∀ b, t.read b = s.read b

/-- The rest of the frame of a meaning run by `exec`: PC and the output ports unchanged, CYC moved on by `extra`. -/
structure ExecFrame (extra : Nat) (s t : State) : Prop where
  pc  : t.pc = s.pc
  cyc : t.cyc = s.cyc + extra
  out : t.out = s.out

/-- The rest of the frame of a whole step of a known instruction: PC past its `len` bytes, `cycles` charged, its opcode and
address on the trace ports and no report. -/
structure StepFrame (len cycles : Nat) (s t : State) : Prop where
  pc    : t.pc = s.pc + BitVec.ofNat 16 len
  cyc   : t.cyc = s.cyc + cycles
  diag  : t.out.diag = none
  trace : t.out.trace = some ⟨s.code 0, s.pc⟩

/-- `exec` runs `i` from `s` to a next state, loading `v` into `r` and charging `extra`. -/
def ExecLoads (i : Instr) (r : Reg) (v : Byte) (extra : Nat) (s : State) : Prop :=
  ∃ t, exec i s = .next t ∧ LoadEffect r v s t ∧ ExecFrame extra s t

/-- `exec` runs `i` from `s` to a next state, storing A at `ea` and charging nothing. -/
def ExecStores (i : Instr) (ea : Addr) (s : State) : Prop :=
  ∃ t, exec i s = .next t ∧ StoreEffect ea s t ∧ ExecFrame 0 s t

/-- Where `op` is the opcode at PC of a Running engine, the step loads `v` into `r` with that length and charge. -/
def StepLoads (s : State) (op : Byte) (r : Reg) (v : Byte) (len cycles : Nat) : Prop :=
  s.Running → s.code 0 = op → ∃ t, step s = .next t ∧ LoadEffect r v s t ∧ StepFrame len cycles s t

/-- Where `op` is the opcode at PC of a Running engine, the step stores A at `ea` with that length and charge. -/
def StepStores (s : State) (op : Byte) (ea : Addr) (len cycles : Nat) : Prop :=
  s.Running → s.code 0 = op → ∃ t, step s = .next t ∧ StoreEffect ea s t ∧ StepFrame len cycles s t

/-- Where the opcode at PC of a Running engine is one of `ops`, the step makes these accesses and ends `len` bytes on. -/
def AccessRow (s : State) (ops : List Byte) (l : List Access) (len : Nat) : Prop :=
  s.Running → s.code 0 ∈ ops → accesses s = l ∧ ∃ t, step s = .next t ∧ t.pc = s.pc + BitVec.ofNat 16 len

/-- The state in which the meaning of `i` starts, once the step has fetched its bytes from PC on and charged its base cost
(R61 to R66). -/
def State.afterFetch (s : State) (i : Instr) : State :=
  { s with
    pc := s.pc + BitVec.ofNat 16 i.length
    cyc := s.cyc + config.baseCycles (s.code 0)
    out := { diag := none, trace := some ⟨s.code 0, s.pc⟩ } }

/-! ## Invariant and reachability -/

/-- The invariant of CORE with its memory (R14, R20, R21): SP is as reset left it; V, D and C are 0, U and I are 1; Z and N
are not both 1; memory is in canonical form. -/
structure State.Inv (s : State) : Prop where
  memory    : Memory.wf s.mem
  stack     : s.sp = 0xFD
  overflow  : s.flag .v = false
  unused    : s.flag .u = true
  decimal   : s.flag .d = false
  interrupt : s.flag .i = true
  carry     : s.flag .c = false
  notBothZN : ¬(s.flag .z = true ∧ s.flag .n = true)

/-- The states of CORE that a session can come to: power-on with any loaded memory, a step, a reset (R26, R42, R160). -/
inductive Reachable : State → Prop where
  | powerOn (m : Memory) (h : Memory.wf m) : Reachable { State.reset with mem := m }
  | stepped {s t : State} (h : Reachable s) (hs : step s = .next t) : Reachable t
  | resetTo {s : State} (h : Reachable s) : Reachable s.applyReset

end Sys2Proof.Machine
end

