-- ==== Sys2Proof/Certificates/Slice0/Obligations.lean ====
section
/-! DEFINITION. The statements for the provers. Each docstring names the rules of spec/ it formalises. -/

section Statements

open Sys2Proof Sys2Proof.Machine

/-! ## Reset (10_state.md, 70_reset_and_hazards.md) -/

/-- R25, R162: the reset operation gives every item its stated value, leaves memory alone and leaves the engine Running
with the next opcode at 0xFFFC; `State.reset` has those values. -/
def Obligations.ResetAssignsTheStatedState : Prop :=
  (∀ s : State,
    s.applyReset.a = 0x00 ∧ s.applyReset.x = 0x00 ∧ s.applyReset.y = 0x00 ∧ s.applyReset.sp = 0xFD ∧
    s.applyReset.pc = 0xFFFC ∧ s.applyReset.sr = 0x24 ∧ s.applyReset.cyc = 0 ∧ s.applyReset.mem = s.mem ∧
    s.applyReset.Running ∧ s.applyReset.code 0 = s.read 0xFFFC) ∧
  (State.reset.a = 0x00 ∧ State.reset.x = 0x00 ∧ State.reset.y = 0x00 ∧ State.reset.sp = 0xFD ∧
    State.reset.pc = 0xFFFC ∧ State.reset.sr = 0x24 ∧ State.reset.cyc = 0)

/-- R161: reset is independent of the state but for memory and is idempotent; nothing else lowers CYC or clears B. The
spec derives this from R160. That the output ports are empty after reset, which the equalities of whole states include, is the
model's choice (log entry 4); that no step lowers CYC rests on its having no upper bound (R22, the spec's decision D5; log
entry 10). -/
def Obligations.ResetForgetsAndAloneLowersCycOrClearsB : Prop :=
  (∀ s s' : State, s.mem = s'.mem → s.applyReset = s'.applyReset) ∧
  (∀ s : State, s.applyReset.applyReset = s.applyReset) ∧
  (∀ s t : State, step s = .next t → s.cyc ≤ t.cyc) ∧
  (∀ (i : Instr) (s t : State), exec i s = .next t → s.flag .b = true → t.flag .b = true)

/-! ## Flags and arithmetic (10_state.md, 41_addressing_alu.md) -/

/-- R17, R18, R19, R27: each flag is its own bit of SR, writing one flag changes that bit alone, and the observer sees the
bits in the order N V U B D I Z C. -/
def Obligations.FlagsAreSingleBitsOfSR : Prop :=
  (∀ sr : Byte,
    getFlag sr .n = sr.getLsbD 7 ∧ getFlag sr .v = sr.getLsbD 6 ∧ getFlag sr .u = sr.getLsbD 5 ∧
    getFlag sr .b = sr.getLsbD 4 ∧ getFlag sr .d = sr.getLsbD 3 ∧ getFlag sr .i = sr.getLsbD 2 ∧
    getFlag sr .z = sr.getLsbD 1 ∧ getFlag sr .c = sr.getLsbD 0) ∧
  (∀ (sr : Byte) (f g : Flag) (b : Bool), getFlag (setFlag sr f b) g = if g = f then b else getFlag sr g) ∧
  (∀ s : State, s.flagBits = [7, 6, 5, 4, 3, 2, 1, 0].map s.sr.getLsbD)

/-- R76, R77, R79: the additions modulo 256 and 65536, and the Z and N of a byte; and R33 with the notation of R4, the spec's
decision D21: the value of two bytes. -/
def Obligations.AluComputesModuloAndTestsZeroAndBit7 : Prop :=
  ∀ (a b : Byte) (p : Addr),
    (add8 a b).toNat = (a.toNat + b.toNat) % 256 ∧
    (add16 p b).toNat = (p.toNat + b.toNat) % 65536 ∧
    (pair a b).toNat = a.toNat * 256 + b.toNat ∧
    ((nz a).z = true ↔ a.toNat = 0) ∧ ((nz a).n = true ↔ 128 ≤ a.toNat) ∧
    ¬((nz a).z = true ∧ (nz a).n = true)

/-- R78: a page cross is a change of the high byte, which for base and base plus index is a carry out of the low byte; with
index 0 there is none. The carry form is the spec's derivation in R78. -/
def Obligations.PageCrossIsCarryOutOfLowByte : Prop :=
  ∀ (before after : Addr) (idx : Byte),
    (pageCmp before after = true ↔ before.toNat / 256 ≠ after.toNat / 256) ∧
    (pageCmp before (add16 before idx) = true ↔ 256 ≤ before.toNat % 256 + idx.toNat) ∧
    pageCmp before (add16 before 0) = false

/-- R81 to R88, R90: the effective address and the page-cross flag of every mode that names memory, as numbers. The
zero-page sums and both bytes of a pointer stay in page 0. That ZP, ZPX, ZPY, ABS and INDX report no cross is the spec's
decision D12. -/
def Obligations.ResolverAddressesEveryMode : Prop :=
  ∀ (b lo hi : Byte) (s : State),
    let pointer (p : Nat) : Nat :=
      (s.read (BitVec.ofNat 16 ((p + 1) % 256))).toNat * 256 + (s.read (BitVec.ofNat 16 (p % 256))).toNat
    let base := hi.toNat * 256 + lo.toNat
    ((resolveZp b).address.toNat = b.toNat ∧ (resolveZp b).crossed = false) ∧
    ((resolveZpx b s).address.toNat = (b.toNat + s.x.toNat) % 256 ∧ (resolveZpx b s).crossed = false) ∧
    ((resolveZpy b s).address.toNat = (b.toNat + s.y.toNat) % 256 ∧ (resolveZpy b s).crossed = false) ∧
    ((resolveAbs lo hi).address.toNat = base ∧ (resolveAbs lo hi).crossed = false) ∧
    ((resolveAbsx lo hi s).address.toNat = (base + s.x.toNat) % 65536 ∧
      (resolveAbsx lo hi s).crossed = decide (256 ≤ base % 256 + s.x.toNat)) ∧
    ((resolveAbsy lo hi s).address.toNat = (base + s.y.toNat) % 65536 ∧
      (resolveAbsy lo hi s).crossed = decide (256 ≤ base % 256 + s.y.toNat)) ∧
    ((resolveIndx b s).address.toNat = pointer (b.toNat + s.x.toNat) ∧ (resolveIndx b s).crossed = false) ∧
    ((resolveIndy b s).address.toNat = (pointer b.toNat + s.y.toNat) % 65536 ∧
      (resolveIndy b s).crossed = decide (256 ≤ pointer b.toNat % 256 + s.y.toNat))

/-! ## Memory (20_memory.md) -/

/-- R31: the port takes addresses modulo 65536, a write changes that one byte and no other, a read returns it. -/
def Obligations.MemoryPortWritesExactlyOneByte : Prop :=
  ∀ (m : Memory) (a b : Nat) (v : Byte),
    Memory.read m a = Memory.read m (a % 65536) ∧ Memory.write m a v = Memory.write m (a % 65536) v ∧
    Memory.read (Memory.write m a v) b = if b % 65536 = a % 65536 then v else Memory.read m b

/-- R30: memories in canonical form that read alike at all 65536 addresses are equal data. The canonical form, with its
unlisted byte, is the model's choice (log entry 1). -/
def Obligations.CanonicalMemoriesReadingAlikeAreEqual : Prop :=
  ∀ m m' : Memory, Memory.wf m → Memory.wf m' → (∀ a < 65536, Memory.read m a = Memory.read m' a) → m = m'

/-! ## Encoding (30_encoding.md) -/

/-- R45 to R50: decoding an encoded instruction gives it back with the bytes after it; every instruction is well formed.
The opcode bytes are the spec's decision D1 (log entry 5). -/
def Obligations.DecodeOfEncodeIsTheInstruction : Prop :=
  ∀ (i : Instr) (rest : List Byte), i.wellFormed = true ∧ decode (encode i ++ rest) = .instr i rest

/-- R47, R50: bytes that decode to an instruction are its encoding followed by the rest: each encoding has one meaning. The
opcode bytes are the spec's decision D1 (log entry 5). -/
def Obligations.DecodedBytesAreTheEncoding : Prop :=
  ∀ (bs rest : List Byte) (i : Instr), decode bs = .instr i rest → bs = encode i ++ rest

/-- R54, R50: the words the spec writes out for one instruction of each family and format, and an unknown byte. Of
the opcode bytes, the spec's source gives 00, A9, A2 and B5; the others are its decision D1 (log entry 5). -/
def Obligations.WordsOfTheSpecDecode : Prop :=
  decode [0xA9, 0xFF] = .instr (.ldaImm 0xFF) [] ∧ decode [0xB5, 0xFF] = .instr (.ldaZpx 0xFF) [] ∧
  decode [0xBD, 0xFF, 0x12] = .instr (.ldaAbsx 0xFF 0x12) [] ∧ decode [0xA2, 0x05] = .instr (.ldxImm 0x05) [] ∧
  decode [0xB4, 0x0B] = .instr (.ldyZpx 0x0B) [] ∧ decode [0x8D, 0x34, 0x12] = .instr (.staAbs 0x34 0x12) [] ∧
  decode [0x00, 0xA9] = .instr .brk [0xA9] ∧ decode [0xEA] = .reject (.unknownOpcode 0xEA)

/-- R52: the unknown opcode bytes are exactly the 230 listed; none of them traps or halts. The list is the complement of
R50, whose bytes are the spec's decision D1 (log entry 5). -/
def Obligations.UnknownOpcodesAreTheListedBytes : Prop :=
  (∀ (op : Byte) (rest : List Byte), decode (op :: rest) = .reject (.unknownOpcode op) ↔ unknownByte op = true) ∧
  ((List.range 256).filter (fun n => unknownByte (BitVec.ofNat 8 n))).length = 230 ∧
  (∀ s : State, s.Running → unknownByte (s.code 0) = true → ∃ t, step s = .next t ∧ t.Running)

/-- R51: the base cost of every instruction is the listed one, and an unknown opcode costs 0. The costs are the spec's decisions
D2 and D3 (log entry 5). -/
def Obligations.BaseCyclesAreTheListedCosts : Prop :=
  (∀ (i : Instr) (op : Byte) (rest : List Byte), encode i = op :: rest → config.baseCycles op = costOf i.mode i.family) ∧
  (∀ op : Byte, unknownByte op = true → config.baseCycles op = 0)

/-! ## The step (40_fetch_decode.md) -/

/-- R61: a Running engine whose bytes at PC decode to `i` runs `exec i` with PC past its bytes and its base cost charged. The
trace ports that `afterFetch` sets are held in State by the model's choice (log entry 3). -/
def Obligations.StepRunsTheDecodedInstruction : Prop :=
  ∀ (s : State) (i : Instr) (rest : List Byte), s.Running →
    decode [s.code 0, s.code 1, s.code 2] = .instr i rest → step s = exec i (s.afterFetch i)

/-- R42, R62, R165: an instruction word placed by `withFetchWord` is the one the next step runs. That a program is placed at
PC in this way is the model's choice (log entry 6). -/
def Obligations.PlacedWordIsRunNext : Prop :=
  ∀ (s : State) (nbits w : Nat) (i : Instr), s.Running → decodeTableWord nbits w = some i →
    step (s.withFetchWord nbits w) = exec i ((s.withFetchWord nbits w).afterFetch i)

/-- R61: from every Running state the step is the table-driven pipeline R61 writes out. The tables' values are the
spec's decisions D1, D2 and D4 (log entry 5), and the output ports are held in State by the model's choice (log entry 3). -/
def Obligations.StepIsThePipelineOfTheTables : Prop :=
  ∀ s : State, s.Running → ∃ t, pipelineStep config s = some t ∧ step s = .next t

/-- R60: a step is enabled exactly when the engine is Running; a request to a Halted engine changes nothing. That
Halted is terminal is the spec's decision D7; the name of the stop is the model's choice (log entry 2). -/
def Obligations.StepIsEnabledExactlyWhenRunning : Prop :=
  ∀ s : State,
    ((∃ t, step s = .next t) ↔ s.Running) ∧
    (s.halted = true → step s = .fault .halted ∧ serve false true s = .next s ∧ accesses s = []) ∧
    (s.Running → serve false true s = step s)

/-- R70: a step leaves the engine Halted exactly when it executed BRK, as the spec derives from R24. -/
def Obligations.StepHaltsExactlyOnBreak : Prop :=
  ∀ s t : State, step s = .next t → (t.halted = true ↔ s.code 0 = 0x00)

/-- R16, R48: a step moves PC on by the length of its instruction, modulo 65536, and by nothing else. The bytes of each
length are those of R50, the spec's decision D1 (log entry 5). -/
def Obligations.ProgramCounterMovesByTheLength : Prop :=
  ∀ s t : State, step s = .next t →
    (s.code 0 ∈ threeByteOpcodes → t.pc = s.pc + 3) ∧
    (unknownByte (s.code 0) = true ∨ s.code 0 = 0x00 → t.pc = s.pc + 1) ∧
    (s.code 0 ∉ threeByteOpcodes → unknownByte (s.code 0) = false → s.code 0 ≠ 0x00 → t.pc = s.pc + 2)

/-- R69: the total charge of a step, which the spec derives from R51, R66 and R68. The costs and the pairs that pay are its
decisions D2, D3 and D4 (log entry 5), and that CYC has no upper bound its decision D5 (R22; log entry 10). -/
def Obligations.StepChargesBaseCostAndPageCross : Prop :=
  ∀ s t : State, step s = .next t →
    t.cyc = s.cyc + config.baseCycles (s.code 0) + pageCrossCycle s ∧
    t.cyc - s.cyc ∈ [0, 2, 3, 4, 5, 6, 7] ∧
    (unknownByte (s.code 0) = true → t.cyc = s.cyc) ∧
    (s.code 0 = 0x00 → t.cyc = s.cyc + 7) ∧
    (s.code 0 ∈ ([0xBD, 0xB9, 0xBE, 0xBC] : List Byte) → t.cyc = s.cyc + 4 ∨ t.cyc = s.cyc + 5) ∧
    (s.code 0 = 0xB1 → t.cyc = s.cyc + 5 ∨ t.cyc = s.cyc + 6)

/-- R72, R131, R141: every step puts its opcode and address on the trace ports, and reports a diagnostic exactly for an
unknown opcode. What the report carries is the spec's decision D13; that the ports are held in State is the model's choice
(log entry 3). -/
def Obligations.DiagnosticExactlyForUnknownOpcode : Prop :=
  ∀ s t : State, step s = .next t →
    t.out.trace = some ⟨s.code 0, s.pc⟩ ∧
    t.out.diag = if unknownByte (s.code 0) then some ⟨s.code 0, s.pc⟩ else none

/-! ## Meanings run by exec (42_loads.md, 43_stores.md, 44_brk_unknown.md) -/

/-- R100 with R80 to R88, R92: LDA in its eight modes completes from every state. Which modes pay for a page
cross is the spec's decision D4 (log entry 5). -/
def Obligations.ExecLdaLoadsA : Prop :=
  ∀ (b lo hi : Byte) (s : State),
    ExecLoads (.ldaImm b) .a b 0 s ∧
    ExecLoads (.ldaZp b) .a (s.read (zext16 b)) 0 s ∧
    ExecLoads (.ldaZpx b) .a (s.read (zext16 (add8 b s.x))) 0 s ∧
    ExecLoads (.ldaAbs lo hi) .a (s.read (pair hi lo)) 0 s ∧
    ExecLoads (.ldaAbsx lo hi) .a (s.read (add16 (pair hi lo) s.x)) (crossing (pair hi lo) s.x) s ∧
    ExecLoads (.ldaAbsy lo hi) .a (s.read (add16 (pair hi lo) s.y)) (crossing (pair hi lo) s.y) s ∧
    ExecLoads (.ldaIndx b) .a (s.read (s.readPointer (add8 b s.x))) 0 s ∧
    ExecLoads (.ldaIndy b) .a (s.read (add16 (s.readPointer b) s.y)) (crossing (s.readPointer b) s.y) s

/-- R100 with R80 to R86, R92: LDX in its five modes completes from every state. Which modes pay for a page
cross is the spec's decision D4 (log entry 5). -/
def Obligations.ExecLdxLoadsX : Prop :=
  ∀ (b lo hi : Byte) (s : State),
    ExecLoads (.ldxImm b) .x b 0 s ∧
    ExecLoads (.ldxZp b) .x (s.read (zext16 b)) 0 s ∧
    ExecLoads (.ldxZpy b) .x (s.read (zext16 (add8 b s.y))) 0 s ∧
    ExecLoads (.ldxAbs lo hi) .x (s.read (pair hi lo)) 0 s ∧
    ExecLoads (.ldxAbsy lo hi) .x (s.read (add16 (pair hi lo) s.y)) (crossing (pair hi lo) s.y) s

/-- R100 with R80 to R85, R92: LDY in its five modes completes from every state. Which modes pay for a page
cross is the spec's decision D4 (log entry 5). -/
def Obligations.ExecLdyLoadsY : Prop :=
  ∀ (b lo hi : Byte) (s : State),
    ExecLoads (.ldyImm b) .y b 0 s ∧
    ExecLoads (.ldyZp b) .y (s.read (zext16 b)) 0 s ∧
    ExecLoads (.ldyZpx b) .y (s.read (zext16 (add8 b s.x))) 0 s ∧
    ExecLoads (.ldyAbs lo hi) .y (s.read (pair hi lo)) 0 s ∧
    ExecLoads (.ldyAbsx lo hi) .y (s.read (add16 (pair hi lo) s.x)) (crossing (pair hi lo) s.x) s

/-- R120 with R81 to R88: STA in its seven modes completes from every state. -/
def Obligations.ExecStaStoresA : Prop :=
  ∀ (b lo hi : Byte) (s : State),
    ExecStores (.staZp b) (zext16 b) s ∧
    ExecStores (.staZpx b) (zext16 (add8 b s.x)) s ∧
    ExecStores (.staAbs lo hi) (pair hi lo) s ∧
    ExecStores (.staAbsx lo hi) (add16 (pair hi lo) s.x) s ∧
    ExecStores (.staAbsy lo hi) (add16 (pair hi lo) s.y) s ∧
    ExecStores (.staIndx b) (s.readPointer (add8 b s.x)) s ∧
    ExecStores (.staIndy b) (add16 (s.readPointer b) s.y) s

/-- R130: BRK completes from every state, setting B and changing nothing else, as the spec's decision D11 has it. -/
def Obligations.ExecBrkSetsBAlone : Prop :=
  ∀ s : State, ∃ t, exec .brk s = .next t ∧ BreakEffect s t ∧ ExecFrame 0 s t

/-! ## Whole steps, from the opcode byte (42_loads.md, 43_stores.md, 44_brk_unknown.md) -/

/-- R101 to R108: the eight LDA opcodes. Bytes, costs and page-cross pairs are the spec's decisions D1, D2 and D4 (log entry 5). -/
def Obligations.LdaOpcodesStep : Prop :=
  ∀ s : State,
    let c1 := s.code 1
    let abs := pair (s.code 2) (s.code 1)
    StepLoads s 0xA9 .a c1 2 2 ∧
    StepLoads s 0xA5 .a (s.read (zext16 c1)) 2 3 ∧
    StepLoads s 0xB5 .a (s.read (zext16 (add8 c1 s.x))) 2 4 ∧
    StepLoads s 0xAD .a (s.read abs) 3 4 ∧
    StepLoads s 0xBD .a (s.read (add16 abs s.x)) 3 (4 + crossing abs s.x) ∧
    StepLoads s 0xB9 .a (s.read (add16 abs s.y)) 3 (4 + crossing abs s.y) ∧
    StepLoads s 0xA1 .a (s.read (s.readPointer (add8 c1 s.x))) 2 6 ∧
    StepLoads s 0xB1 .a (s.read (add16 (s.readPointer c1) s.y)) 2 (5 + crossing (s.readPointer c1) s.y)

/-- R109 to R113: the five LDX opcodes. Bytes, costs and page-cross pairs are the spec's decisions D1, D2 and D4 (log entry 5). -/
def Obligations.LdxOpcodesStep : Prop :=
  ∀ s : State,
    let c1 := s.code 1
    let abs := pair (s.code 2) (s.code 1)
    StepLoads s 0xA2 .x c1 2 2 ∧
    StepLoads s 0xA6 .x (s.read (zext16 c1)) 2 3 ∧
    StepLoads s 0xB6 .x (s.read (zext16 (add8 c1 s.y))) 2 4 ∧
    StepLoads s 0xAE .x (s.read abs) 3 4 ∧
    StepLoads s 0xBE .x (s.read (add16 abs s.y)) 3 (4 + crossing abs s.y)

/-- R114 to R118: the five LDY opcodes. Bytes, costs and page-cross pairs are the spec's decisions D1, D2 and D4 (log entry 5). -/
def Obligations.LdyOpcodesStep : Prop :=
  ∀ s : State,
    let c1 := s.code 1
    let abs := pair (s.code 2) (s.code 1)
    StepLoads s 0xA0 .y c1 2 2 ∧
    StepLoads s 0xA4 .y (s.read (zext16 c1)) 2 3 ∧
    StepLoads s 0xB4 .y (s.read (zext16 (add8 c1 s.x))) 2 4 ∧
    StepLoads s 0xAC .y (s.read abs) 3 4 ∧
    StepLoads s 0xBC .y (s.read (add16 abs s.x)) 3 (4 + crossing abs s.x)

/-- R121 to R127: the seven STA opcodes, whose charge does not depend on a page cross. Bytes and costs are the spec's
decisions D1, D2 and D4 (log entry 5). -/
def Obligations.StaOpcodesStep : Prop :=
  ∀ s : State,
    let c1 := s.code 1
    let abs := pair (s.code 2) (s.code 1)
    StepStores s 0x85 (zext16 c1) 2 3 ∧
    StepStores s 0x95 (zext16 (add8 c1 s.x)) 2 4 ∧
    StepStores s 0x8D abs 3 4 ∧
    StepStores s 0x9D (add16 abs s.x) 3 5 ∧
    StepStores s 0x99 (add16 abs s.y) 3 5 ∧
    StepStores s 0x81 (s.readPointer (add8 c1 s.x)) 2 6 ∧
    StepStores s 0x91 (add16 (s.readPointer c1) s.y) 2 6

/-- R130: the BRK step; after it no step is enabled, and reset makes the engine Running again. The cost 7, the length 1 and
the terminal Halted state are the spec's decisions D2, D11 and D7 (log entries 2 and 5). -/
def Obligations.BrkOpcodeStepHalts : Prop :=
  ∀ s : State, s.Running → s.code 0 = 0x00 →
    ∃ t, step s = .next t ∧ BreakEffect s t ∧ StepFrame 1 7 s t ∧ step t = .fault .halted ∧ t.applyReset.Running

/-- R131: the unknown-opcode step changes PC by one and reports the byte with its address; nothing else changes. The
cost 0 and what the report carries are the spec's decisions D3 and D13; the field `out` is the model's (log entry 3). -/
def Obligations.UnknownOpcodeStepSkipsOneByte : Prop :=
  ∀ s : State, s.Running → unknownByte (s.code 0) = true →
    step s = .next { s with pc := s.pc + 1, out := ⟨some ⟨s.code 0, s.pc⟩, some ⟨s.code 0, s.pc⟩⟩ }

/-! ## Whole-machine rules -/

/-- R21: which flags each kind of step writes, and the six values SR has in the states reachable from power-on and reset. The
spec derives them from R17 and R100; the opcode bytes are its decision D1 (log entry 5). R21 speaks of the states reachable
from reset; that power-on equals reset, where `Reachable` starts, is R26, the spec's decision D8 (log entry 13). -/
def Obligations.FlagWritersAndReachableStatus : Prop :=
  (∀ s t : State, step s = .next t →
    (s.code 0 ∈ ldaBytes ++ ldxBytes ++ ldyBytes → FlagsKeptBut [.z, .n] s t) ∧
    (s.code 0 ∈ staBytes ∨ unknownByte (s.code 0) = true → t.sr = s.sr) ∧
    (s.code 0 = 0x00 → FlagsKeptBut [.b] s t)) ∧
  (∀ s : State, Reachable s → s.sr ∈ ([0x24, 0x26, 0xA4, 0x34, 0x36, 0xB4] : List Byte))

/-- R11 to R14: A, X and Y change only in their own loads, and SP in no step. The opcode bytes are the spec's decision D1
(log entry 5). -/
def Obligations.RegistersChangeOnlyInTheirLoads : Prop :=
  ∀ s t : State, step s = .next t →
    (t.a ≠ s.a → s.code 0 ∈ ldaBytes) ∧ (t.x ≠ s.x → s.code 0 ∈ ldxBytes) ∧
    (t.y ≠ s.y → s.code 0 ∈ ldyBytes) ∧ t.sp = s.sp

/-- R42, R120: a byte of memory that a step changes was written by STA and holds A. The opcode bytes are the spec's decision
D1 (log entry 5). -/
def Obligations.MemoryChangesOnlyInStores : Prop :=
  ∀ s t : State, step s = .next t → ∀ b : Addr, t.read b ≠ s.read b → s.code 0 ∈ staBytes ∧ t.read b = s.a

/-- R14, R20, R21, R31: every step keeps the invariant `State.Inv`. Its clause about the form of memory is the model's choice
(log entry 1). -/
def Obligations.EveryStepKeepsTheInvariant : Prop :=
  ∀ s t : State, s.Inv → step s = .next t → t.Inv

/-- R25: the reset state has the invariant, and so has every state after the reset operation on a canonical memory. The form of
memory is the model's choice (log entry 1). -/
def Obligations.ResetHasTheInvariant : Prop :=
  State.reset.Inv ∧ ∀ s : State, Memory.wf s.mem → s.applyReset.Inv

/-- R91: the accesses of a step and the PC after it, row by row. The order is the spec's decision D14 and the opcode bytes
its decision D1 (log entry 5). -/
def Obligations.AccessesOfEveryOpcode : Prop :=
  ∀ s : State,
    let c1 := s.code 1
    let abs := pair (s.code 2) (s.code 1)
    let f1 : List Access := [.read s.pc]
    let f2 : List Access := [.read s.pc, .read (s.pc + 1)]
    let f3 : List Access := [.read s.pc, .read (s.pc + 1), .read (s.pc + 2)]
    let ptr (p : Byte) : List Access := [.read (zext16 p), .read (zext16 (add8 p 1))]
    (s.Running → unknownByte (s.code 0) = true → accesses s = f1 ∧ ∃ t, step s = .next t ∧ t.pc = s.pc + 1) ∧
    AccessRow s [0x00] f1 1 ∧
    AccessRow s [0xA9, 0xA2, 0xA0] f2 2 ∧
    AccessRow s [0xA5, 0xA6, 0xA4] (f2 ++ [.read (zext16 c1)]) 2 ∧
    AccessRow s [0x85] (f2 ++ [.write (zext16 c1) s.a]) 2 ∧
    AccessRow s [0xB5, 0xB4] (f2 ++ [.read (zext16 (add8 c1 s.x))]) 2 ∧
    AccessRow s [0x95] (f2 ++ [.write (zext16 (add8 c1 s.x)) s.a]) 2 ∧
    AccessRow s [0xB6] (f2 ++ [.read (zext16 (add8 c1 s.y))]) 2 ∧
    AccessRow s [0xAD, 0xAE, 0xAC] (f3 ++ [.read abs]) 3 ∧
    AccessRow s [0x8D] (f3 ++ [.write abs s.a]) 3 ∧
    AccessRow s [0xBD, 0xBC] (f3 ++ [.read (add16 abs s.x)]) 3 ∧
    AccessRow s [0x9D] (f3 ++ [.write (add16 abs s.x) s.a]) 3 ∧
    AccessRow s [0xB9, 0xBE] (f3 ++ [.read (add16 abs s.y)]) 3 ∧
    AccessRow s [0x99] (f3 ++ [.write (add16 abs s.y) s.a]) 3 ∧
    AccessRow s [0xA1] (f2 ++ ptr (add8 c1 s.x) ++ [.read (s.readPointer (add8 c1 s.x))]) 2 ∧
    AccessRow s [0x81] (f2 ++ ptr (add8 c1 s.x) ++ [.write (s.readPointer (add8 c1 s.x)) s.a]) 2 ∧
    AccessRow s [0xB1] (f2 ++ ptr c1 ++ [.read (add16 (s.readPointer c1) s.y)]) 2 ∧
    AccessRow s [0x91] (f2 ++ ptr c1 ++ [.write (add16 (s.readPointer c1) s.y) s.a]) 2

/-- R91 ("no other accesses"): a step depends on memory only at the addresses it reads. Two states that differ only in memory,
and not at those addresses, make the same accesses and step to states that differ only in memory. -/
def Obligations.StepReadsOnlyItsAccesses : Prop :=
  ∀ (s t : State) (m : Memory), step s = .next t →
    (∀ b : Addr, .read b ∈ accesses s → Memory.read m b.toNat = s.read b) →
    accesses { s with mem := m } = accesses s ∧
    ∃ t', step { s with mem := m } = .next t' ∧ { t' with mem := t.mem } = t

/-- R35, R74, R91: memory after a step is memory before it with the step's writes; there is at most one, after all reads. -/
def Obligations.StepWritesOnlyItsAccesses : Prop :=
  ∀ s t : State, step s = .next t →
    (∀ (b : Addr) (v : Byte), .write b v ∈ accesses s → t.read b = v) ∧
    (∀ b : Addr, (∀ v, .write b v ∉ accesses s) → t.read b = s.read b) ∧
    ∃ (reads : List Addr) (last : List Access), accesses s = reads.map .read ++ last ∧
      (last = [] ∨ ∃ b, last = [.write b s.a])

/-- R169: nothing but the CYC update reads CYC. Another CYC before the step changes CYC after it by as much, and nothing
else. The exact sum rests on CYC having no upper bound (R22, the spec's decision D5; log entry 10). -/
def Obligations.CycNeverInfluencesTheStep : Prop :=
  ∀ (s t : State) (n : Nat), step s = .next t →
    step { s with cyc := n } = .next { t with cyc := n + (t.cyc - s.cyc) }

/-- R120 (round trip): after a store of A at an address, every load whose data byte is at that address loads that A.
The address of a meaning's last access is the function `operandAccesses` of the model (log entry 11). -/
def Obligations.StoredByteIsLoadedBack : Prop :=
  ∀ (i j : Instr) (s t u : State) (ea : Addr) (v : Byte),
    exec i s = .next t → (operandAccesses i s).getLast? = some (.write ea v) →
    exec j t = .next u → (operandAccesses j t).getLast? = some (.read ea) →
    v = s.a ∧ (j.family = .lda → u.a = s.a) ∧ (j.family = .ldx → u.x = s.a) ∧ (j.family = .ldy → u.y = s.a)

/-- R40, R168: a byte that a step stores is what a fetch of that address gets, from the very next step on. The spec derives it
from R32 and R38. -/
def Obligations.StoredByteIsFetchedNext : Prop :=
  ∀ (s t : State) (b : Addr) (v : Byte), step s = .next t → .write b v ∈ accesses s →
    v = s.a ∧ ∀ k : Nat, t.pc + BitVec.ofNat 16 k = b → t.code k = s.a

/-- R144, R163: reset is served before a step presented with it, a step request while Halted is ignored, and a step does at
most one of halting and reporting. The order is the spec's decision D18; that requests are arguments of `serve` is the model's
choice (log entry 7). -/
def Obligations.RequestsAreServedResetFirst : Prop :=
  (∀ s : State,
    serve true true s = step s.applyReset ∧ serve true false s = .next s.applyReset ∧ serve false false s = .next s ∧
    (s.halted = true → serve false true s = .next s) ∧ (s.Running → serve false true s = step s)) ∧
  (∀ s t : State, step s = .next t →
    ¬(t.halted = true ∧ t.out.diag.isSome) ∧
    (s.code 0 ∈ ldaBytes ++ ldxBytes ++ ldyBytes ++ staBytes → t.Running ∧ t.out.diag = none))

/-- R170, R171: a run stops nowhere but after a state in which B is set: never by a fault of its own, never by a refusal. That
a run ends there is the spec's decision D7; the name of the stop is the model's choice (log entry 2). -/
def Obligations.RunStopsOnlyAfterBreak : Prop :=
  ∀ (s : State) (k : Nat),
    (∃ t, core.run k s = .next t) ∨
    (core.run k s = .fault .halted ∧ ∃ j < k, ∃ t : State, core.run j s = .next t ∧ t.halted = true)

end Statements
end

