-- ==== Sys2Proof/Laws/State.lean ====
section
/-! SUPPORT. One lemma for each field under each update of a state, so that no proof unfolds a record update. -/

namespace Sys2Proof.Machine

section
variable (s : State) (f : Flag) (b : Bool) (v : Byte) (r : Reg) (addr : Addr) (n : Nat)

@[simp] theorem setFlag_a : (s.setFlag f b).a = s.a := rfl
@[simp] theorem setFlag_x : (s.setFlag f b).x = s.x := rfl
@[simp] theorem setFlag_y : (s.setFlag f b).y = s.y := rfl
@[simp] theorem setFlag_sp : (s.setFlag f b).sp = s.sp := rfl
@[simp] theorem setFlag_pc : (s.setFlag f b).pc = s.pc := rfl
@[simp] theorem setFlag_sr : (s.setFlag f b).sr = setFlag s.sr f b := rfl
@[simp] theorem setFlag_cyc : (s.setFlag f b).cyc = s.cyc := rfl
@[simp] theorem setFlag_mem : (s.setFlag f b).mem = s.mem := rfl
@[simp] theorem setFlag_out : (s.setFlag f b).out = s.out := rfl

@[simp] theorem setZN_a : (s.setZN v).a = s.a := rfl
@[simp] theorem setZN_x : (s.setZN v).x = s.x := rfl
@[simp] theorem setZN_y : (s.setZN v).y = s.y := rfl
@[simp] theorem setZN_sp : (s.setZN v).sp = s.sp := rfl
@[simp] theorem setZN_pc : (s.setZN v).pc = s.pc := rfl
@[simp] theorem setZN_cyc : (s.setZN v).cyc = s.cyc := rfl
@[simp] theorem setZN_mem : (s.setZN v).mem = s.mem := rfl
@[simp] theorem setZN_out : (s.setZN v).out = s.out := rfl
@[simp] theorem setZN_reg : (s.setZN v).reg r = s.reg r := by cases r <;> rfl

@[simp] theorem setReg_sp : (s.setReg r v).sp = s.sp := by cases r <;> rfl
@[simp] theorem setReg_pc : (s.setReg r v).pc = s.pc := by cases r <;> rfl
@[simp] theorem setReg_sr : (s.setReg r v).sr = s.sr := by cases r <;> rfl
@[simp] theorem setReg_cyc : (s.setReg r v).cyc = s.cyc := by cases r <;> rfl
@[simp] theorem setReg_mem : (s.setReg r v).mem = s.mem := by cases r <;> rfl
@[simp] theorem setReg_out : (s.setReg r v).out = s.out := by cases r <;> rfl
@[simp] theorem setReg_reg_same : (s.setReg r v).reg r = v := by cases r <;> rfl
theorem setReg_reg_other {q r : Reg} (h : q ≠ r) : (s.setReg r v).reg q = s.reg q := by
  cases q <;> cases r <;> first | rfl | exact absurd rfl h

@[simp] theorem write_a : (s.write addr v).a = s.a := rfl
@[simp] theorem write_x : (s.write addr v).x = s.x := rfl
@[simp] theorem write_y : (s.write addr v).y = s.y := rfl
@[simp] theorem write_sp : (s.write addr v).sp = s.sp := rfl
@[simp] theorem write_pc : (s.write addr v).pc = s.pc := rfl
@[simp] theorem write_sr : (s.write addr v).sr = s.sr := rfl
@[simp] theorem write_cyc : (s.write addr v).cyc = s.cyc := rfl
@[simp] theorem write_out : (s.write addr v).out = s.out := rfl
@[simp] theorem write_mem : (s.write addr v).mem = Memory.write s.mem addr.toNat v := rfl
@[simp] theorem write_reg : (s.write addr v).reg r = s.reg r := by cases r <;> rfl

@[simp] theorem charge_a : (s.charge n).a = s.a := rfl
@[simp] theorem charge_x : (s.charge n).x = s.x := rfl
@[simp] theorem charge_y : (s.charge n).y = s.y := rfl
@[simp] theorem charge_sp : (s.charge n).sp = s.sp := rfl
@[simp] theorem charge_pc : (s.charge n).pc = s.pc := rfl
@[simp] theorem charge_sr : (s.charge n).sr = s.sr := rfl
@[simp] theorem charge_cyc : (s.charge n).cyc = s.cyc + n := rfl
@[simp] theorem charge_mem : (s.charge n).mem = s.mem := rfl
@[simp] theorem charge_out : (s.charge n).out = s.out := rfl

end

section
variable (s : State) (f : Family) (m : Mode) (c : Bool) (r : Reg)

/-- The page-cross charge as one change of CYC. -/
theorem chargePenalty_eq :
    s.chargePenalty f m c = s.charge (if c && config.penalty f m then 1 else 0) := by
  unfold State.chargePenalty
  split <;> rfl

@[simp] theorem chargePenalty_sp : (s.chargePenalty f m c).sp = s.sp := by rw [chargePenalty_eq]; rfl
@[simp] theorem chargePenalty_pc : (s.chargePenalty f m c).pc = s.pc := by rw [chargePenalty_eq]; rfl
@[simp] theorem chargePenalty_sr : (s.chargePenalty f m c).sr = s.sr := by rw [chargePenalty_eq]; rfl
@[simp] theorem chargePenalty_mem : (s.chargePenalty f m c).mem = s.mem := by rw [chargePenalty_eq]; rfl
@[simp] theorem chargePenalty_out : (s.chargePenalty f m c).out = s.out := by rw [chargePenalty_eq]; rfl
@[simp] theorem chargePenalty_reg : (s.chargePenalty f m c).reg r = s.reg r := by
  rw [chargePenalty_eq]; cases r <;> rfl

end

section
variable (s : State) (op : Byte) (addr : Addr)

@[simp] theorem halt_reg (r : Reg) : s.halt.reg r = s.reg r := by cases r <;> rfl
@[simp] theorem halt_sp : s.halt.sp = s.sp := rfl
@[simp] theorem halt_pc : s.halt.pc = s.pc := rfl
@[simp] theorem halt_sr : s.halt.sr = setFlag s.sr .b true := rfl
@[simp] theorem halt_cyc : s.halt.cyc = s.cyc := rfl
@[simp] theorem halt_mem : s.halt.mem = s.mem := rfl
@[simp] theorem halt_out : s.halt.out = s.out := rfl

@[simp] theorem emit_reg (r : Reg) : (s.emitUnknownOpcode op addr).reg r = s.reg r := by cases r <;> rfl
@[simp] theorem emit_sp : (s.emitUnknownOpcode op addr).sp = s.sp := rfl
@[simp] theorem emit_pc : (s.emitUnknownOpcode op addr).pc = s.pc := rfl
@[simp] theorem emit_sr : (s.emitUnknownOpcode op addr).sr = s.sr := rfl
@[simp] theorem emit_cyc : (s.emitUnknownOpcode op addr).cyc = s.cyc := rfl
@[simp] theorem emit_mem : (s.emitUnknownOpcode op addr).mem = s.mem := rfl
@[simp] theorem emit_trace : (s.emitUnknownOpcode op addr).out.trace = s.out.trace := rfl
@[simp] theorem emit_diag : (s.emitUnknownOpcode op addr).out.diag = some ⟨op, addr⟩ := rfl

@[simp] theorem fetchByte_fst : s.fetchByte.1 = s.read s.pc := rfl
@[simp] theorem fetchByte_pc : s.fetchByte.2.pc = s.pc + 1 := rfl
@[simp] theorem fetchByte_mem : s.fetchByte.2.mem = s.mem := rfl
@[simp] theorem fetchByte_sr : s.fetchByte.2.sr = s.sr := rfl
@[simp] theorem fetchByte_cyc : s.fetchByte.2.cyc = s.cyc := rfl
@[simp] theorem fetchByte_out : s.fetchByte.2.out = s.out := rfl
@[simp] theorem fetchByte_sp : s.fetchByte.2.sp = s.sp := rfl
@[simp] theorem fetchByte_reg (r : Reg) : s.fetchByte.2.reg r = s.reg r := by cases r <;> rfl

@[simp] theorem applyReset_a : s.applyReset.a = 0 := rfl
@[simp] theorem applyReset_x : s.applyReset.x = 0 := rfl
@[simp] theorem applyReset_y : s.applyReset.y = 0 := rfl
@[simp] theorem applyReset_sp : s.applyReset.sp = 0xFD := rfl
@[simp] theorem applyReset_pc : s.applyReset.pc = 0xFFFC := rfl
@[simp] theorem applyReset_sr : s.applyReset.sr = 0x24 := rfl
@[simp] theorem applyReset_cyc : s.applyReset.cyc = 0 := rfl
@[simp] theorem applyReset_mem : s.applyReset.mem = s.mem := rfl

@[simp] theorem afterFetch_reg (i : Instr) (r : Reg) : (s.afterFetch i).reg r = s.reg r := by cases r <;> rfl
@[simp] theorem afterFetch_a (i : Instr) : (s.afterFetch i).a = s.a := rfl
@[simp] theorem afterFetch_x (i : Instr) : (s.afterFetch i).x = s.x := rfl
@[simp] theorem afterFetch_y (i : Instr) : (s.afterFetch i).y = s.y := rfl
@[simp] theorem afterFetch_sp (i : Instr) : (s.afterFetch i).sp = s.sp := rfl
@[simp] theorem afterFetch_sr (i : Instr) : (s.afterFetch i).sr = s.sr := rfl
@[simp] theorem afterFetch_mem (i : Instr) : (s.afterFetch i).mem = s.mem := rfl
@[simp] theorem afterFetch_pc (i : Instr) : (s.afterFetch i).pc = s.pc + BitVec.ofNat 16 i.length := rfl
@[simp] theorem afterFetch_cyc (i : Instr) : (s.afterFetch i).cyc = s.cyc + config.baseCycles (s.code 0) := rfl
@[simp] theorem afterFetch_out (i : Instr) : (s.afterFetch i).out = ⟨none, some ⟨s.code 0, s.pc⟩⟩ := rfl
@[simp] theorem afterFetch_read (i : Instr) : (s.afterFetch i).read addr = s.read addr := rfl

end

/-- A state is determined by its registers and its other fields. -/
theorem state_ext_of_reg {s t : State} (hr : ∀ r, s.reg r = t.reg r) (hsp : s.sp = t.sp) (hpc : s.pc = t.pc)
    (hsr : s.sr = t.sr) (hcyc : s.cyc = t.cyc) (hmem : s.mem = t.mem) (hout : s.out = t.out) : s = t := by
  have ha : s.a = t.a := hr .a
  have hx : s.x = t.x := hr .x
  have hy : s.y = t.y := hr .y
  cases s
  cases t
  simp_all

end Sys2Proof.Machine
end

