-- ==== Sys2Proof/Laws/Decode.lean ====
section
/-! SUPPORT. What the opcode lookup can answer, and the decoder's tables as facts. -/

namespace Sys2Proof

/-- The first byte of an instruction (R45). -/
def Instr.opcode (i : Instr) : Byte := (encode i).headD 0

theorem encode_eq (i : Instr) : encode i = i.opcode :: i.operands := by cases i <;> rfl

theorem encode_length (i : Instr) : (encode i).length = i.length := by cases i <;> rfl

/-- Every instruction's opcode byte leads back to its family and mode (R50, R65). -/
theorem decodePair_opcode (i : Instr) : config.decodePair i.opcode = some (i.family, i.mode) := by
  cases i <;> rfl

/-- A form that takes the operand bytes of `i` to `i` itself. -/
def Form.builds (i : Instr) : Form → Prop
  | .f1 j => i.operands = [] ∧ j = i
  | .f2 g => ∃ b, i.operands = [b] ∧ g b = i
  | .f3 g => ∃ lo hi, i.operands = [lo, hi] ∧ g lo hi = i

theorem decodeOpcode_opcode (i : Instr) : ∃ fm, decodeOpcode i.opcode = some fm ∧ fm.builds i := by
  cases i <;> exact ⟨_, rfl, by simp [Form.builds, Instr.operands]⟩

/-- A form of the opcode byte `op`: every instruction it builds is encoded with `op` and the operand bytes given. -/
def Form.encodesAs (op : Byte) : Form → Prop
  | .f1 i => encode i = [op]
  | .f2 g => ∀ b, encode (g b) = [op, b]
  | .f3 g => ∀ lo hi, encode (g lo hi) = [op, lo, hi]

/-- What the opcode lookup answers, when it answers. -/
theorem decodeOpcode_encodesAs {op : Byte} {fm : Form} (h : decodeOpcode op = some fm) : fm.encodesAs op := by
  obtain ⟨⟨f, m⟩, hp, hf⟩ := Option.bind_eq_some_iff.1 h
  obtain ⟨row, hrow, heq⟩ := Option.map_eq_some_iff.1 hp
  have hop : row.opcode = op := by simpa using List.find?_some hrow
  have hmem := List.mem_of_find?_eq_some hrow
  subst hop
  simp only [Prod.mk.injEq] at heq
  obtain ⟨rfl, rfl⟩ := heq
  simp only [config, opcodeRows, ldaRows, ldxRows, ldyRows, staRows, List.cons_append, List.nil_append,
    List.mem_cons, List.not_mem_nil, or_false] at hmem
  rcases hmem with rfl | rfl | rfl | rfl | rfl | rfl | rfl | rfl | rfl | rfl | rfl | rfl | rfl | rfl | rfl | rfl | rfl |
    rfl | rfl | rfl | rfl | rfl | rfl | rfl | rfl | rfl
  all_goals
    obtain rfl := Option.some.inj hf
    simp [Form.encodesAs, encode]

/-- An opcode byte is unknown exactly where it is the opcode of no instruction (R52). -/
theorem decodeOpcode_eq_none {op : Byte} : decodeOpcode op = none ↔ ∀ i : Instr, i.opcode ≠ op := by
  constructor
  · rintro h i rfl
    obtain ⟨fm, hfm, -⟩ := decodeOpcode_opcode i
    simp [hfm] at h
  · intro h
    cases hd : decodeOpcode op with
    | none => rfl
    | some fm =>
      have he := decodeOpcode_encodesAs hd
      cases fm with
      | f1 i => exact absurd (by simp_all [Form.encodesAs, Instr.opcode]) (h i)
      | f2 g => exact absurd (by simp_all [Form.encodesAs, Instr.opcode]) (h (g 0))
      | f3 g => exact absurd (by simp_all [Form.encodesAs, Instr.opcode]) (h (g 0 0))

theorem unknownByte_eq_isNone : ∀ op : Byte, Machine.unknownByte op = (decodeOpcode op).isNone := by decide

/-- The bytes R52 lists are the ones the opcode lookup has no answer for. -/
theorem unknownByte_iff {op : Byte} : Machine.unknownByte op = true ↔ decodeOpcode op = none := by
  rw [unknownByte_eq_isNone, Option.isNone_iff_eq_none]

end Sys2Proof
end

