-- ==== Sys2Proof/Laws/Flags.lean ====
section
/-! SUPPORT. What the one flag write does to every flag (R18, R19), and the two flags of a load (R79, R100). -/

namespace Sys2Proof.Machine

/-- The bit number of a flag (R17). -/
def Flag.bit : Flag → Nat
  | .n => 7
  | .v => 6
  | .u => 5
  | .b => 4
  | .d => 3
  | .i => 2
  | .z => 1
  | .c => 0

theorem Flag.bit_injective {f g : Flag} (h : f.bit = g.bit) : f = g := by
  cases f <;> cases g <;> first | rfl | simp [Flag.bit] at h

theorem getFlag_eq_bit : ∀ (sr : Byte) (f : Flag), getFlag sr f = sr.getLsbD f.bit := by
  intro sr f
  cases f <;> revert sr <;> decide

theorem mask_bits (f : Flag) : ∀ k < 8, f.mask.getLsbD k = decide (k = f.bit) := by
  cases f <;> decide

theorem complement_mask_bits (f : Flag) : ∀ k < 8, (0xFF - f.mask).getLsbD k = decide (k ≠ f.bit) := by
  cases f <;> decide

theorem Flag.bit_lt (f : Flag) : f.bit < 8 := by cases f <;> decide

/-- Reading a flag after writing one. -/
@[simp] theorem getFlag_setFlag (sr : Byte) (f g : Flag) (b : Bool) :
    getFlag (setFlag sr f b) g = if g = f then b else getFlag sr g := by
  have hg := g.bit_lt
  have key : (g.bit = f.bit) ↔ g = f := ⟨Flag.bit_injective, fun h => h ▸ rfl⟩
  rw [getFlag_eq_bit, getFlag_eq_bit]
  unfold setFlag
  cases b
  · simp only [Bool.false_eq_true, if_false, BitVec.getLsbD_and, complement_mask_bits f _ hg, ne_eq, key]
    by_cases h : g = f <;> simp [h]
  · simp only [if_true, BitVec.getLsbD_or, mask_bits f _ hg, key]
    by_cases h : g = f <;> simp [h]

@[simp] theorem flag_setFlag (s : State) (f g : Flag) (b : Bool) :
    (s.setFlag f b).flag g = if g = f then b else s.flag g := getFlag_setFlag _ _ _ _

/-- The flags after the two flag updates of a load. -/
theorem flag_setZN (s : State) (v : Byte) (g : Flag) :
    (s.setZN v).flag g = if g = .n then v.getLsbD 7 else if g = .z then (v == 0) else s.flag g := by
  simp [State.setZN, nz]

theorem flag_of_sr_eq {s t : State} (h : t.sr = s.sr) (f : Flag) : t.flag f = s.flag f := by
  simp [State.flag, h]

theorem halted_eq_flag (s : State) : s.halted = s.flag .b := rfl

@[simp] theorem flag_halt (s : State) (g : Flag) : s.halt.flag g = if g = .b then true else s.flag g :=
  flag_setFlag _ _ _ _

@[simp] theorem flag_afterFetch (s : State) (i : Instr) (f : Flag) : (s.afterFetch i).flag f = s.flag f := rfl

end Sys2Proof.Machine
end

