-- ==== Sys2Proof/Laws/Memory.lean ====
section
/-! SUPPORT. The memory port: reading what a write left (R31, R32), and every operation keeps the canonical form. -/

namespace Sys2Proof.Machine

theorem lookup_erase (m : Memory) (k j : Nat) :
    Memory.lookup (Memory.erase m k) j = if j = k then unlistedByte else Memory.lookup m j := by
  induction m with
  | nil => simp [Memory.erase, Memory.lookup]
  | cons c m ih =>
    unfold Memory.erase at ih ⊢
    by_cases hc : c.1 = k
    · subst hc
      by_cases hj : j = c.1
      · simpa [Memory.lookup, hj] using ih
      · simp [Memory.lookup, ih, hj, Ne.symm hj]
    · by_cases hj : j = k
      · subst hj; simp [hc, Memory.lookup, ih]
      · simp [hc, hj, Memory.lookup, ih]

theorem lookup_insert {m : Memory} {k : Nat} (v : Byte) (h : ∀ c ∈ m, c.1 ≠ k) (j : Nat) :
    Memory.lookup (Memory.insert m k v) j = if j = k then v else Memory.lookup m j := by
  induction m with
  | nil => simp [Memory.insert, Memory.lookup, eq_comm]
  | cons c m ih =>
    have hc : c.1 ≠ k := h c (by simp)
    have ih := ih (fun d hd => h d (by simp [hd]))
    by_cases hlt : k < c.1
    · simp [Memory.insert, hlt, Memory.lookup, eq_comm]
    · by_cases hj : j = k
      · subst hj; simp [Memory.insert, hlt, Memory.lookup, hc, ih]
      · simp [Memory.insert, hlt, Memory.lookup, ih, hj]

theorem erase_keys (m : Memory) (k : Nat) : ∀ c ∈ Memory.erase m k, c.1 ≠ k := by
  simp [Memory.erase]

/-- Reading after a write, on any memory: the written byte at its address, every other byte as before. -/
theorem read_write (m : Memory) (addr b : Nat) (v : Byte) :
    Memory.read (Memory.write m addr v) b =
      if b % memorySize = addr % memorySize then v else Memory.read m b := by
  unfold Memory.write Memory.read
  split
  · next h => rw [lookup_erase, h]
  · rw [lookup_insert v (erase_keys _ _), lookup_erase]
    split <;> simp_all

/-- The same at 16-bit addresses of a state. -/
theorem State.read_write (s : State) (addr b : Addr) (v : Byte) :
    (s.write addr v).read b = if b = addr then v else s.read b := by
  have hb := b.isLt
  have ha := addr.isLt
  simp only [State.read, State.write, Machine.read_write, memorySize]
  congr 1
  rw [Nat.mod_eq_of_lt hb, Nat.mod_eq_of_lt ha, BitVec.toNat_inj]

theorem erase_wf {m : Memory} (h : Memory.wf m) (k : Nat) : Memory.wf (Memory.erase m k) :=
  ⟨h.1.filter _, fun c hc => h.2 c (List.mem_of_mem_filter hc)⟩

theorem mem_insert {m : Memory} {k : Nat} {v : Byte} {c : Host.Cell} (h : c ∈ Memory.insert m k v) :
    c = (k, v) ∨ c ∈ m := by
  induction m with
  | nil => simpa [Memory.insert] using h
  | cons d m ih =>
    unfold Memory.insert at h
    split at h
    · simpa using h
    · rcases List.mem_cons.1 h with rfl | h
      · simp
      · rcases ih h with h | h <;> simp [h]

theorem insert_wf {m : Memory} {k : Nat} {v : Byte} (h : Memory.wf m) (hk : ∀ c ∈ m, c.1 ≠ k) (hlt : k < memorySize)
    (hv : v ≠ unlistedByte) : Memory.wf (Memory.insert m k v) := by
  refine ⟨?_, fun c hc => ?_⟩
  · have h := h.1
    induction m with
    | nil => simp [Memory.insert]
    | cons d m ih =>
      have ⟨hd, hm⟩ := List.pairwise_cons.1 h
      have hne := hk d (by simp)
      unfold Memory.insert
      split
      · next hkd =>
        refine List.pairwise_cons.2 ⟨fun c hc => ?_, h⟩
        rcases List.mem_cons.1 hc with rfl | hc
        · exact hkd
        · exact hkd.trans (hd c hc)
      · next hkd =>
        refine List.pairwise_cons.2 ⟨fun c hc => ?_, ih ⟨hm, ?_⟩ (fun c hc => hk c (by simp [hc])) hm⟩
        · rcases mem_insert hc with rfl | hc
          · simp only; omega
          · exact hd c hc
        · exact fun c hc => (‹Memory.wf (d :: m)›).2 c (by simp [hc])
  · rcases mem_insert hc with rfl | hc
    · exact ⟨hlt, hv⟩
    · exact h.2 c hc

/-- A write keeps the canonical form. -/
theorem write_wf {m : Memory} (h : Memory.wf m) (addr : Nat) (v : Byte) : Memory.wf (Memory.write m addr v) := by
  unfold Memory.write
  split
  · exact erase_wf h _
  · next hv => exact insert_wf (erase_wf h _) (erase_keys _ _) (Nat.mod_lt _ (by decide)) hv

/-- Loading bytes keeps the canonical form. -/
theorem loadBytes_wf (bs : List Byte) : ∀ (s : State) (addr : Addr), Memory.wf s.mem → Memory.wf (s.loadBytes addr bs).mem := by
  induction bs with
  | nil => exact fun _ _ h => h
  | cons b bs ih => exact fun s addr h => ih _ _ (write_wf h _ _)

/-- The memory of the reset state is in canonical form. -/
theorem reset_mem_wf : Memory.wf State.reset.mem := by decide

theorem read_of_mem_eq {s t : State} (h : t.mem = s.mem) (b : Addr) : t.read b = s.read b := by
  simp [State.read, h]

end Sys2Proof.Machine
end

