-- ==== Sys2Proof/Laws/Effects.lean ====
section
/-! SUPPORT. What the shared effects can do: a load, a store, the halt. Each says everything at once; proofs about an
instruction cite these and unfold no effect. -/

namespace Sys2Proof.Machine

/-- The charge of R68 at the end of a load or store. -/
def penaltyOf (f : Family) (m : Mode) (crossed : Bool) : Nat := if crossed && config.penalty f m then 1 else 0

/-- A load answers a next state, with the effect of R100 and the charge of R68. -/
theorem load_spec (f : Family) (m : Mode) (r : Reg) (v : Byte) (crossed : Bool) (s : State) :
    ∃ t, load f m r v crossed s = .next t ∧ LoadEffect r v s t ∧ ExecFrame (penaltyOf f m crossed) s t ∧ t.mem = s.mem := by
  refine ⟨_, rfl, ⟨?_, ?_, ?_, ?_, ?_, ?_, ?_⟩, ⟨?_, ?_, ?_⟩, ?_⟩
  · simp
  · rw [flag_of_sr_eq (chargePenalty_sr _ _ _ _), flag_setZN]; simp [beq_eq_decide]
  · rw [flag_of_sr_eq (chargePenalty_sr _ _ _ _), flag_setZN]; simp [BitVec.msb_eq_getLsbD_last]
  · intro g hg
    rw [flag_of_sr_eq (chargePenalty_sr _ _ _ _), flag_setZN]
    simp only [List.mem_cons, List.not_mem_nil, or_false, not_or] at hg
    simp [hg, State.flag]
  · intro q hq; simp [setReg_reg_other s v hq]
  · simp
  · intro b; exact read_of_mem_eq (by simp) b
  · simp
  · simp [chargePenalty_eq, penaltyOf]
  · simp
  · simp

/-- A store answers a next state, with the effect of R120; it is never charged. -/
theorem storeA_spec (m : Mode) (ea : Resolved) (s : State) :
    ∃ t, storeA m ea s = .next t ∧ StoreEffect ea.address s t ∧ ExecFrame 0 s t ∧
      t.mem = Memory.write s.mem ea.address.toNat s.a := by
  have hp : config.penalty .sta m = false := by cases m <;> rfl
  refine ⟨s.write ea.address s.a, by simp [storeA, State.chargePenalty, hp], ⟨?_, ?_, ?_, rfl, rfl⟩, ⟨rfl, rfl, rfl⟩, rfl⟩
  · simp [State.read_write]
  · intro b hb; simp [State.read_write, hb]
  · intro q; simp

/-- BRK answers a next state, with the effect of R130. -/
theorem execBrk_spec (s : State) :
    ∃ t, execBrk s = .next t ∧ BreakEffect s t ∧ ExecFrame 0 s t ∧ t.mem = s.mem := by
  refine ⟨s.halt, rfl, ⟨?_, ?_, ?_, rfl, fun _ => rfl⟩, ⟨rfl, rfl, rfl⟩, rfl⟩
  · simp [halted_eq_flag]
  · intro f hf
    simp only [List.mem_cons, List.not_mem_nil, or_false] at hf
    simp [hf]
  · intro q; simp

/-- What any instruction does, once its bytes are fetched: one load, one store, or the halt. -/
theorem exec_cases (i : Instr) (s : State) :
    (∃ r v c, (i.family = .lda ∧ r = Reg.a ∨ i.family = .ldx ∧ r = Reg.x ∨ i.family = .ldy ∧ r = Reg.y) ∧
      exec i s = load i.family i.mode r v c s) ∨
    (∃ ea, i.family = .sta ∧ exec i s = storeA i.mode ea s) ∨
    (i = .brk ∧ exec i s = execBrk s) := by
  cases i
  case brk => exact .inr (.inr ⟨rfl, rfl⟩)
  case staZp | staZpx | staAbs | staAbsx | staAbsy | staIndx | staIndy => exact .inr (.inl ⟨_, rfl, rfl⟩)
  case ldaImm | ldaZp | ldaZpx | ldaAbs | ldaAbsx | ldaAbsy | ldaIndx | ldaIndy =>
    exact .inl ⟨_, _, _, .inl ⟨rfl, rfl⟩, rfl⟩
  case ldxImm | ldxZp | ldxZpy | ldxAbs | ldxAbsy => exact .inl ⟨_, _, _, .inr (.inl ⟨rfl, rfl⟩), rfl⟩
  case ldyImm | ldyZp | ldyZpx | ldyAbs | ldyAbsx => exact .inl ⟨_, _, _, .inr (.inr ⟨rfl, rfl⟩), rfl⟩

/-- What an instruction that answered a next state has done: a load of its family's register, a store, or the halt, each with
its whole effect. Proofs about all instructions cite this. -/
theorem exec_inv {i : Instr} {s t : State} (h : exec i s = .next t) :
    (∃ r v c, (i.family = .lda ∧ r = Reg.a ∨ i.family = .ldx ∧ r = Reg.x ∨ i.family = .ldy ∧ r = Reg.y) ∧
      LoadEffect r v s t ∧ ExecFrame (penaltyOf i.family i.mode c) s t ∧ t.mem = s.mem) ∨
    (∃ ea : Resolved, i.family = .sta ∧ StoreEffect ea.address s t ∧ ExecFrame 0 s t ∧
      t.mem = Memory.write s.mem ea.address.toNat s.a) ∨
    (i = .brk ∧ BreakEffect s t ∧ ExecFrame 0 s t ∧ t.mem = s.mem) := by
  rcases exec_cases i s with ⟨r, v, c, hf, he⟩ | ⟨ea, hf, he⟩ | ⟨hf, he⟩
  · obtain ⟨u, hu, hs⟩ := load_spec i.family i.mode r v c s
    rw [he, hu] at h
    cases h
    exact .inl ⟨r, v, c, hf, hs⟩
  · obtain ⟨u, hu, hs⟩ := storeA_spec i.mode ea s
    rw [he, hu] at h
    cases h
    exact .inr (.inl ⟨ea, hf, hs⟩)
  · obtain ⟨u, hu, hs⟩ := execBrk_spec s
    rw [he, hu] at h
    cases h
    exact .inr (.inr ⟨hf, hs⟩)

/-- Every instruction answers a next state, from every state. -/
theorem exec_next (i : Instr) (s : State) : ∃ t, exec i s = .next t := by
  rcases exec_cases i s with ⟨r, v, c, -, h⟩ | ⟨ea, -, h⟩ | ⟨-, h⟩
  · exact ⟨_, h.trans rfl⟩
  · exact ⟨_, h.trans rfl⟩
  · exact ⟨_, h.trans rfl⟩

end Sys2Proof.Machine
end

