-- ==== Sys2Proof/Laws/PerInstr.lean ====
section
/-! SUPPORT. Facts of every instruction as syntax, one lemma for each constructor. -/

namespace Sys2Proof.Laws.EncodedForm

/-- An instruction is well formed, its encoding has its length (R48), and its opcode byte is a row of `OPCODES` with its
family and mode (R50). -/
def Statement (i : Instr) : Prop :=
  i.wellFormed = true ∧ (encode i).length = i.length ∧
    ∃ row ∈ config.opcodes, row.opcode = i.opcode ∧ row.family = i.family ∧ row.mode = i.mode

theorem statement_of_lookup (i : Instr) (hw : i.wellFormed = true) (hl : (encode i).length = i.length)
    (hm : config.opcodes.contains ⟨i.opcode, i.family, i.mode⟩ = true) : Statement i :=
  ⟨hw, hl, _, by simpa using hm, rfl, rfl, rfl⟩

theorem ldaImm (b : Byte) : Statement (.ldaImm b) := statement_of_lookup _ rfl rfl rfl
theorem ldaZp (b : Byte) : Statement (.ldaZp b) := statement_of_lookup _ rfl rfl rfl
theorem ldaZpx (b : Byte) : Statement (.ldaZpx b) := statement_of_lookup _ rfl rfl rfl
theorem ldaAbs (lo hi : Byte) : Statement (.ldaAbs lo hi) := statement_of_lookup _ rfl rfl rfl
theorem ldaAbsx (lo hi : Byte) : Statement (.ldaAbsx lo hi) := statement_of_lookup _ rfl rfl rfl
theorem ldaAbsy (lo hi : Byte) : Statement (.ldaAbsy lo hi) := statement_of_lookup _ rfl rfl rfl
theorem ldaIndx (b : Byte) : Statement (.ldaIndx b) := statement_of_lookup _ rfl rfl rfl
theorem ldaIndy (b : Byte) : Statement (.ldaIndy b) := statement_of_lookup _ rfl rfl rfl
theorem ldxImm (b : Byte) : Statement (.ldxImm b) := statement_of_lookup _ rfl rfl rfl
theorem ldxZp (b : Byte) : Statement (.ldxZp b) := statement_of_lookup _ rfl rfl rfl
theorem ldxZpy (b : Byte) : Statement (.ldxZpy b) := statement_of_lookup _ rfl rfl rfl
theorem ldxAbs (lo hi : Byte) : Statement (.ldxAbs lo hi) := statement_of_lookup _ rfl rfl rfl
theorem ldxAbsy (lo hi : Byte) : Statement (.ldxAbsy lo hi) := statement_of_lookup _ rfl rfl rfl
theorem ldyImm (b : Byte) : Statement (.ldyImm b) := statement_of_lookup _ rfl rfl rfl
theorem ldyZp (b : Byte) : Statement (.ldyZp b) := statement_of_lookup _ rfl rfl rfl
theorem ldyZpx (b : Byte) : Statement (.ldyZpx b) := statement_of_lookup _ rfl rfl rfl
theorem ldyAbs (lo hi : Byte) : Statement (.ldyAbs lo hi) := statement_of_lookup _ rfl rfl rfl
theorem ldyAbsx (lo hi : Byte) : Statement (.ldyAbsx lo hi) := statement_of_lookup _ rfl rfl rfl
theorem staZp (b : Byte) : Statement (.staZp b) := statement_of_lookup _ rfl rfl rfl
theorem staZpx (b : Byte) : Statement (.staZpx b) := statement_of_lookup _ rfl rfl rfl
theorem staAbs (lo hi : Byte) : Statement (.staAbs lo hi) := statement_of_lookup _ rfl rfl rfl
theorem staAbsx (lo hi : Byte) : Statement (.staAbsx lo hi) := statement_of_lookup _ rfl rfl rfl
theorem staAbsy (lo hi : Byte) : Statement (.staAbsy lo hi) := statement_of_lookup _ rfl rfl rfl
theorem staIndx (b : Byte) : Statement (.staIndx b) := statement_of_lookup _ rfl rfl rfl
theorem staIndy (b : Byte) : Statement (.staIndy b) := statement_of_lookup _ rfl rfl rfl
theorem brk : Statement .brk := statement_of_lookup _ rfl rfl rfl

end Sys2Proof.Laws.EncodedForm
end

