-- ==== Sys2Proof/Laws/Step.lean ====
section
/-! SUPPORT. What the fetch unit and a step can do. -/

namespace Sys2Proof.Machine

theorem pc_add_two (pc : Addr) : pc + 1#16 + 1#16 = pc + 2#16 := by rw [BitVec.add_assoc]; rfl

theorem pc_add_three (pc : Addr) : pc + 1#16 + 1#16 + 1#16 = pc + 3#16 := by
  rw [BitVec.add_assoc, BitVec.add_assoc]; rfl

theorem code_zero (s : State) : s.code 0 = s.read s.pc := by simp [State.code]

/-- What fetching can answer: a whole instruction, with its bytes at PC and the state `afterFetch`; or an unknown opcode,
with PC one on and the cost table's entry charged. -/
theorem fetch_cases (s : State) :
    (∃ i, s.fetch = (.known i, s.afterFetch i) ∧ encode i = (List.range i.length).map s.code) ∨
    (decodeOpcode (s.code 0) = none ∧ s.fetch = (.unknown (s.code 0),
      { s with pc := s.pc + 1#16, cyc := s.cyc + config.baseCycles (s.code 0),
               out := { diag := none, trace := some ⟨s.code 0, s.pc⟩ } })) := by
  have hz := code_zero s
  cases hd : decodeOpcode (s.code 0) with
  | none =>
    right
    rw [hz] at hd ⊢
    exact ⟨rfl, by simp only [State.fetch, State.beginStep, State.fetchByte, hd]; rfl⟩
  | some fm =>
    left
    have he := decodeOpcode_encodesAs hd
    rw [hz] at hd
    cases fm with
    | f1 i =>
      have hl : i.length = 1 := by rw [← encode_length, he]; rfl
      refine ⟨i, ?_, ?_⟩
      · simp only [State.fetch, State.beginStep, State.fetchByte, hd, State.afterFetch, hl, hz]; rfl
      · rw [hl, he]; rfl
    | f2 g =>
      have hl : (g (s.code 1)).length = 2 := by rw [← encode_length, he]; rfl
      refine ⟨g (s.code 1), ?_, ?_⟩
      · simp only [State.fetch, State.beginStep, State.fetchByte, hd, State.afterFetch, hl, hz]
        refine congrArg₂ Prod.mk rfl ?_
        simp only [State.charge, add16, zext16]
        congr 1
        exact pc_add_two _
      · rw [hl, he]; rfl
    | f3 g =>
      have hl : (g (s.code 1) (s.code 2)).length = 3 := by rw [← encode_length, he]; rfl
      have h2 : s.code 2 = s.read (s.pc + 1#16 + 1#16) := by rw [pc_add_two]; rfl
      refine ⟨g (s.code 1) (s.code 2), ?_, ?_⟩
      · rw [h2] at hl
        simp only [State.fetch, State.beginStep, State.fetchByte, hd, State.afterFetch, hl, hz, h2]
        refine congrArg₂ Prod.mk rfl ?_
        simp only [State.charge, add16, zext16]
        congr 1
        exact pc_add_three _
      · rw [hl, he]; rfl

/-- The encoding decides the instruction. -/
theorem encode_inj {i j : Instr} (h : encode i = encode j) : i = j := by
  have ho : i.opcode = j.opcode := by simp [Instr.opcode, h]
  have hops : i.operands = j.operands := by rw [encode_eq, encode_eq] at h; exact (List.cons.inj h).2
  obtain ⟨fm, h1, b1⟩ := decodeOpcode_opcode i
  obtain ⟨fm', h2, b2⟩ := decodeOpcode_opcode j
  obtain rfl : fm = fm' := by rw [ho, h2] at h1; exact (Option.some.inj h1).symm
  cases fm with
  | f1 k => exact b1.2.symm.trans b2.2
  | f2 g =>
    obtain ⟨b, e1, rfl⟩ := b1
    obtain ⟨b', e2, rfl⟩ := b2
    obtain rfl : b = b' := by rw [e1, e2] at hops; exact (List.cons.inj hops).1
    rfl
  | f3 g =>
    obtain ⟨lo, hi, e1, rfl⟩ := b1
    obtain ⟨lo', hi', e2, rfl⟩ := b2
    rw [e1, e2] at hops
    simp only [List.cons.injEq, and_true] at hops
    rw [hops.1, hops.2]

/-- Where the bytes at PC are those of `i`, the opcode byte is that of `i`. -/
theorem opcode_of_code {s : State} {i : Instr} (hc : encode i = (List.range i.length).map s.code) :
    s.code 0 = i.opcode := by
  have hc := congrArg (List.headD · 0) hc
  simp only [Instr.length, Nat.add_comm 1, List.range_succ_eq_map] at hc
  exact hc.symm

/-- A Running engine whose bytes at PC are those of `i` runs `i`. -/
theorem step_of_code {s : State} {i : Instr} (hr : s.Running) (hc : encode i = (List.range i.length).map s.code) :
    step s = exec i (s.afterFetch i) := by
  have hh : s.halted = false := hr
  have h0 := opcode_of_code hc
  rcases fetch_cases s with ⟨j, hj, hcj⟩ | ⟨hd, -⟩
  · have hlen : i.length = j.length := by
      have hoj := opcode_of_code hcj
      have hm : some (i.family, i.mode) = some (j.family, j.mode) := by
        rw [← decodePair_opcode, ← decodePair_opcode, ← h0, ← hoj]
      have hm := congrArg Prod.snd (Option.some.inj hm)
      simp only at hm
      rw [Instr.length, Instr.length, hm]
    have hij : i = j := encode_inj (by rw [hc, hcj, hlen])
    subst hij
    simp [step, hh, hj]
  · exact absurd h0.symm (decodeOpcode_eq_none.1 hd i)

/-- What a step of a Running engine is: the decoded instruction run by `exec`, or the unknown-opcode step. -/
theorem step_running {s : State} (hr : s.Running) :
    (∃ i, encode i = (List.range i.length).map s.code ∧ step s = exec i (s.afterFetch i)) ∨
    (decodeOpcode (s.code 0) = none ∧ step s = .next
      { s with pc := s.pc + 1#16, cyc := s.cyc + config.baseCycles (s.code 0),
               out := { diag := some ⟨s.code 0, s.pc⟩, trace := some ⟨s.code 0, s.pc⟩ } }) := by
  have hh : s.halted = false := hr
  rcases fetch_cases s with ⟨i, hi, hc⟩ | ⟨hd, hf⟩
  · exact .inl ⟨i, hc, step_of_code hr hc⟩
  · exact .inr ⟨hd, by simp [step, hh, hf, unknownOpcode, State.emitUnknownOpcode]⟩

/-- A Halted engine takes no step. -/
theorem step_halted {s : State} (h : s.halted = true) : step s = .fault .halted := by simp [step, h]

/-- A step that answers a next state started Running. -/
theorem running_of_step {s t : State} (h : step s = .next t) : s.Running := by
  cases hb : s.halted with
  | false => exact hb
  | true => simp [step_halted hb] at h

/-- What a step that answered a next state has done: run the instruction whose bytes are at PC, or skipped an unknown
opcode. Proofs about all steps cite this. -/
theorem step_inv {s t : State} (h : step s = .next t) :
    (∃ i, encode i = (List.range i.length).map s.code ∧ s.code 0 = i.opcode ∧ exec i (s.afterFetch i) = .next t) ∨
    (unknownByte (s.code 0) = true ∧
      t = { s with pc := s.pc + 1#16, cyc := s.cyc + config.baseCycles (s.code 0),
                   out := { diag := some ⟨s.code 0, s.pc⟩, trace := some ⟨s.code 0, s.pc⟩ } }) := by
  rcases step_running (running_of_step h) with ⟨i, hc, he⟩ | ⟨hd, he⟩
  · exact .inl ⟨i, hc, opcode_of_code hc, he ▸ h⟩
  · rw [he] at h
    cases h
    exact .inr ⟨unknownByte_iff.2 hd, rfl⟩

/-- A Running engine answers a next state. -/
theorem step_next {s : State} (hr : s.Running) : ∃ t, step s = .next t := by
  rcases step_running hr with ⟨i, -, h⟩ | ⟨-, h⟩
  · obtain ⟨t, ht⟩ := exec_next i (s.afterFetch i)
    exact ⟨t, h.trans ht⟩
  · exact ⟨_, h⟩

end Sys2Proof.Machine
end

