-- ==== Sys2Proof/Machine/Assembly.lean ====
section
/-! DEFINITION. The assembler syntax of R54: how the spec writes an instruction, and a byte with no mnemonic. No part of the
machine uses it; it fixes how programs are read and written. -/

namespace Sys2Proof

/-- A hexadecimal digit, 0 to 9 and A to F. -/
def hexDigit (n : Nat) : Char := (['0', '1', '2', '3', '4', '5', '6', '7', '8', '9', 'A', 'B', 'C', 'D', 'E', 'F'][n]?).getD '?'

/-- A byte as two hexadecimal digits. -/
def hexByte (b : Byte) : List Char := [hexDigit (b.toNat / 16), hexDigit (b.toNat % 16)]

/-- The mnemonic of a family (R50). -/
def Family.chars : Family → List Char
  | .lda => ['L', 'D', 'A']
  | .ldx => ['L', 'D', 'X']
  | .ldy => ['L', 'D', 'Y']
  | .sta => ['S', 'T', 'A']
  | .brk => ['B', 'R', 'K']

/-- The operand text of a mode (R54). The operand bytes come low byte first and are written high byte first. -/
def Mode.chars (m : Mode) (operands : List Byte) : List Char :=
  let v := '$' :: (operands.reverse.map hexByte).flatten
  match m with
  | .impl => []
  | .imm => [' ', '#'] ++ v
  | .zp | .abs => [' '] ++ v
  | .zpx | .absx => [' '] ++ v ++ [',', 'X']
  | .zpy | .absy => [' '] ++ v ++ [',', 'Y']
  | .indx => [' ', '('] ++ v ++ [',', 'X', ')']
  | .indy => [' ', '('] ++ v ++ [')', ',', 'Y']

/-- An instruction as the spec writes it (R54). -/
def Instr.chars (i : Instr) : List Char := i.family.chars ++ i.mode.chars i.operands

/-- A byte with no mnemonic, `.byte $nn` (R54). -/
def byteChars (b : Byte) : List Char := ['.', 'b', 'y', 't', 'e', ' ', '$'] ++ hexByte b

end Sys2Proof
end

