-- ==== Sys2Proof/Tests/Slice0.lean ====
section
/-! SUPPORT. Tests. Words, start states and results come from spec/: the encodings of R101 to R130 and the vectors S<n>, V<n>
of 95_test_vectors.md. Each vector also shows a state that meets the hypotheses of the statements about its opcode. -/

namespace Sys2Proof.Tests

open Sys2Proof.Machine

/-! ## Helpers -/

/-- The next state of an outcome, where there is one. -/
def nextOf : Host.Outcome State Fault Refusal → Option State
  | .next t => some t
  | _ => none

/-- The stop of an outcome, where it is a fault. -/
def faultOf : Host.Outcome State Fault Refusal → Option Fault
  | .fault r => some r
  | _ => none

/-- The reset state with other A, X, Y, PC, SR, memory bytes as listed, and code at PC. -/
def start (a x y : Byte) (pc : Addr) (sr : Byte) (code : List Byte) (data : List (Addr × Byte)) : State :=
  (data.foldl (fun (s : State) c => s.write c.1 c.2) { State.reset with a := a, x := x, y := y, pc := pc, sr := sr }).loadBytes pc code

/-- A, X, Y, SP, PC, SR, CYC of a state. -/
def seven (s : State) : List Nat :=
  [s.a.toNat, s.x.toNat, s.y.toNat, s.sp.toNat, s.pc.toNat, s.sr.toNat, s.cyc]

/-- A Running engine with that opcode at PC steps to a state with those seven values and memory as before. -/
def stepsTo (s : State) (op : Byte) (l : List Nat) : Bool :=
  !s.halted && s.code 0 == op && ((nextOf (step s)).map (fun t => seven t == l && t.mem == s.mem)).getD false

/-- The same, where the step writes one byte. -/
def storesTo (s : State) (op : Byte) (l : List Nat) (addr : Addr) (v : Byte) : Bool :=
  !s.halted && s.code 0 == op &&
    ((nextOf (step s)).map (fun t => seven t == l && t.read addr == v && t.mem == Memory.write s.mem addr.toNat v)).getD false

/-! ## Well-formedness: each check refuses an ill-formed line, and one line passes -/

theorem test_wellFormed_refuses_missing_pair : Written.wellFormed ⟨.sta, .imm, [0x10]⟩ = false := by decide
theorem test_wellFormed_refuses_ldx_zpx : Written.wellFormed ⟨.ldx, .zpx, [0x10]⟩ = false := by decide
theorem test_wellFormed_refuses_too_few_operands : Written.wellFormed ⟨.lda, .abs, [0x34]⟩ = false := by decide
theorem test_wellFormed_refuses_too_many_operands : Written.wellFormed ⟨.brk, .impl, [0x00]⟩ = false := by decide
theorem test_wellFormed_accepts : Written.wellFormed ⟨.lda, .abs, [0x34, 0x12]⟩ = true := by decide

/-! ## Decoding: words written out from the encodings of R101 to R130, bit by bit from the table's patterns -/

theorem test_decode_lda :
    decode [0b10101001, 0x34, 0x12] = .instr (.ldaImm 0x34) [0x12] ∧
    decode [0b10100101, 0x34, 0x12] = .instr (.ldaZp 0x34) [0x12] ∧
    decode [0b10110101, 0x34, 0x12] = .instr (.ldaZpx 0x34) [0x12] ∧
    decode [0b10101101, 0x34, 0x12] = .instr (.ldaAbs 0x34 0x12) [] ∧
    decode [0b10111101, 0x34, 0x12] = .instr (.ldaAbsx 0x34 0x12) [] ∧
    decode [0b10111001, 0x34, 0x12] = .instr (.ldaAbsy 0x34 0x12) [] ∧
    decode [0b10100001, 0x34, 0x12] = .instr (.ldaIndx 0x34) [0x12] ∧
    decode [0b10110001, 0x34, 0x12] = .instr (.ldaIndy 0x34) [0x12] := by decide

theorem test_decode_ldx :
    decode [0b10100010, 0x34, 0x12] = .instr (.ldxImm 0x34) [0x12] ∧
    decode [0b10100110, 0x34, 0x12] = .instr (.ldxZp 0x34) [0x12] ∧
    decode [0b10110110, 0x34, 0x12] = .instr (.ldxZpy 0x34) [0x12] ∧
    decode [0b10101110, 0x34, 0x12] = .instr (.ldxAbs 0x34 0x12) [] ∧
    decode [0b10111110, 0x34, 0x12] = .instr (.ldxAbsy 0x34 0x12) [] := by decide

theorem test_decode_ldy :
    decode [0b10100000, 0x34, 0x12] = .instr (.ldyImm 0x34) [0x12] ∧
    decode [0b10100100, 0x34, 0x12] = .instr (.ldyZp 0x34) [0x12] ∧
    decode [0b10110100, 0x34, 0x12] = .instr (.ldyZpx 0x34) [0x12] ∧
    decode [0b10101100, 0x34, 0x12] = .instr (.ldyAbs 0x34 0x12) [] ∧
    decode [0b10111100, 0x34, 0x12] = .instr (.ldyAbsx 0x34 0x12) [] := by decide

theorem test_decode_sta :
    decode [0b10000101, 0x34, 0x12] = .instr (.staZp 0x34) [0x12] ∧
    decode [0b10010101, 0x34, 0x12] = .instr (.staZpx 0x34) [0x12] ∧
    decode [0b10001101, 0x34, 0x12] = .instr (.staAbs 0x34 0x12) [] ∧
    decode [0b10011101, 0x34, 0x12] = .instr (.staAbsx 0x34 0x12) [] ∧
    decode [0b10011001, 0x34, 0x12] = .instr (.staAbsy 0x34 0x12) [] ∧
    decode [0b10000001, 0x34, 0x12] = .instr (.staIndx 0x34) [0x12] ∧
    decode [0b10010001, 0x34, 0x12] = .instr (.staIndy 0x34) [0x12] := by decide

theorem test_decode_brk : decode [0b00000000, 0xA9] = .instr .brk [0xA9] := by decide

theorem test_decode_rejects :
    decode [] = .reject .noBytes ∧ decode [0xEA, 0x00] = .reject (.unknownOpcode 0xEA) ∧
    decode [0xA9] = .reject (.truncated 0xA9) ∧ decode [0xAD, 0x34] = .reject (.truncated 0xAD) := by decide

/-- The pairs S6 and S7 print, numbered as the opcode table numbers its bits. -/
theorem test_decodeTableWord :
    decodeTableWord 16 0xFFA9 = some (.ldaImm 0xFF) ∧ decodeTableWord 8 0xA9 = some (.ldaImm 0x00) ∧
    decodeTableWord 24 0x1234AD = some (.ldaAbs 0x34 0x12) ∧ decodeTableWord 8 0x00 = some .brk ∧
    decodeTableWord 8 0xEA = none := by decide

/-- Examples of R54. -/
theorem test_assembly :
    Instr.chars (.ldaAbsx 0xFF 0x12) = ['L', 'D', 'A', ' ', '$', '1', '2', 'F', 'F', ',', 'X'] ∧
    Instr.chars (.ldaIndy 0x40) = ['L', 'D', 'A', ' ', '(', '$', '4', '0', ')', ',', 'Y'] ∧
    Instr.chars (.ldaImm 0xFF) = ['L', 'D', 'A', ' ', '#', '$', 'F', 'F'] := by decide

/-! ## Functions of the ALU, the flag register and the resolver (the function vectors of 95_test_vectors.md, S2, S3) -/

theorem test_add8 : add8 0xFF 0x05 = 0x04 ∧ add8 0x80 0x80 = 0x00 ∧ add8 0x10 0xFF = 0x0F := by decide
theorem test_add16 : add16 0x12FF 0x01 = 0x1300 ∧ add16 0xFFFF 0x01 = 0x0000 ∧ add16 0xFF01 0xFF = 0x0000 := by decide
theorem test_pageCmp :
    pageCmp 0x12FF 0x1300 = true ∧ pageCmp 0x1200 0x12FF = false ∧ pageCmp 0xFFFF 0x0000 = true := by decide
theorem test_nz : nz 0x00 = ⟨true, false⟩ ∧ nz 0x7F = ⟨false, false⟩ ∧ nz 0x80 = ⟨false, true⟩ := by decide
theorem test_getFlag : getFlag 0x24 .u = true ∧ getFlag 0x24 .i = true ∧ getFlag 0x24 .b = false := by decide
theorem test_setFlag :
    setFlag 0x24 .b true = 0x34 ∧ setFlag 0xA4 .n false = 0x24 ∧ setFlag 0x24 .z true = 0x26 ∧
    setFlag 0xFF .z false = 0xFD := by decide
theorem test_flagBits : State.reset.flagBits = [false, false, true, false, false, true, false, false] := by decide

/-! ## Memory -/

theorem test_memory_write_keeps_order :
    Memory.write (Memory.write [] 0x1300 0x5A) 0x10010 0x01 = [(0x10, 0x01), (0x1300, 0x5A)] := by decide
theorem test_memory_write_of_unlisted_byte : Memory.write [(0x10, 0x01)] 0x10 0x00 = [] := by decide

/-- Two canonical memories that read alike at every address. -/
theorem witness_canonical_memories :
    Memory.wf (Memory.write [] 0x10 0x01) ∧ Memory.wf [(0x10, 0x01)] ∧
    ∀ a < 65536, Memory.read (Memory.write [] 0x10 0x01) a = Memory.read [(0x10, 0x01)] a :=
  ⟨by decide, by decide, fun _ _ => rfl⟩

/-! ## Steps -/

/-- V3, R101: LDA #$80. -/
theorem test_V3_lda_80 :
    stepsTo (start 0x00 0x00 0x00 0x0200 0x24 [0xA9, 0x80] []) 0xA9
      [0x80, 0x00, 0x00, 0xFD, 0x0202, 0xA4, 2] = true := by decide

/-- V5, R101: LDA #$00. -/
theorem test_V5_lda_00 :
    stepsTo (start 0x00 0x00 0x00 0x0200 0xED [0xA9, 0x00] []) 0xA9
      [0x00, 0x00, 0x00, 0xFD, 0x0202, 0x6F, 2] = true := by decide

/-- V6, R102: LDA $10. -/
theorem test_V6_lda_10 :
    stepsTo (start 0x00 0x00 0x00 0x0200 0x24 [0xA5, 0x10] [(0x0010, 0x42)]) 0xA5
      [0x42, 0x00, 0x00, 0xFD, 0x0202, 0x24, 3] = true := by decide

/-- V8, R103: LDA $FF,X. -/
theorem test_V8_lda_ff_x :
    stepsTo (start 0x00 0x05 0x00 0x0200 0x24 [0xB5, 0xFF] [(0x0004, 0x7B), (0x0104, 0xEE)]) 0xB5
      [0x7B, 0x05, 0x00, 0xFD, 0x0202, 0x24, 4] = true := by decide

/-- V9, R103: LDA $80,X. -/
theorem test_V9_lda_80_x :
    stepsTo (start 0x00 0x80 0x00 0x0200 0x24 [0xB5, 0x80] [(0x0000, 0x33), (0x0100, 0xEE)]) 0xB5
      [0x33, 0x80, 0x00, 0xFD, 0x0202, 0x24, 4] = true := by decide

/-- V11, R104: LDA $1234. -/
theorem test_V11_lda_1234 :
    stepsTo (start 0x00 0x00 0x00 0x0200 0x24 [0xAD, 0x34, 0x12] [(0x1234, 0x80)]) 0xAD
      [0x80, 0x00, 0x00, 0xFD, 0x0203, 0xA4, 4] = true := by decide

/-- V63, R104: LDA $0000. -/
theorem test_V63_lda_0000 :
    stepsTo (start 0x00 0x00 0x00 0xFFFF 0x24 [0xAD, 0x00, 0x00] []) 0xAD
      [0x00, 0x00, 0x00, 0xFD, 0x0002, 0x26, 4] = true := by decide

/-- V12, R105: LDA $12FF,X. -/
theorem test_V12_lda_12ff_x :
    stepsTo (start 0x00 0x01 0x00 0x0200 0x24 [0xBD, 0xFF, 0x12] [(0x1300, 0x44)]) 0xBD
      [0x44, 0x01, 0x00, 0xFD, 0x0203, 0x24, 5] = true := by decide

/-- V13, R105: LDA $1200,X. -/
theorem test_V13_lda_1200_x :
    stepsTo (start 0x00 0x01 0x00 0x0200 0x24 [0xBD, 0x00, 0x12] [(0x1201, 0x45)]) 0xBD
      [0x45, 0x01, 0x00, 0xFD, 0x0203, 0x24, 4] = true := by decide

/-- V17, R106: LDA $12FF,Y. -/
theorem test_V17_lda_12ff_y :
    stepsTo (start 0x00 0x00 0x01 0x0200 0x24 [0xB9, 0xFF, 0x12] [(0x1300, 0x49)]) 0xB9
      [0x49, 0x00, 0x01, 0xFD, 0x0203, 0x24, 5] = true := by decide

/-- V18, R106: LDA $1280,Y. -/
theorem test_V18_lda_1280_y :
    stepsTo (start 0x00 0x00 0x7F 0x0200 0x24 [0xB9, 0x80, 0x12] [(0x12FF, 0x4A)]) 0xB9
      [0x4A, 0x00, 0x7F, 0xFD, 0x0203, 0x24, 4] = true := by decide

/-- V20, R107: LDA ($FE,X). -/
theorem test_V20_lda_fe_x :
    stepsTo (start 0x00 0x01 0x00 0x0200 0x24 [0xA1, 0xFE] [(0x0000, 0x12), (0x00FF, 0x34), (0x0100, 0xEE), (0x1234, 0x5C)]) 0xA1
      [0x5C, 0x01, 0x00, 0xFD, 0x0202, 0x24, 6] = true := by decide

/-- V21, R107: LDA ($FF,X). -/
theorem test_V21_lda_ff_x :
    stepsTo (start 0x00 0x05 0x00 0x0200 0x24 [0xA1, 0xFF] [(0x0004, 0xFF), (0x0005, 0x12), (0x12FF, 0x5D)]) 0xA1
      [0x5D, 0x05, 0x00, 0xFD, 0x0202, 0x24, 6] = true := by decide

/-- V23, R108: LDA ($40),Y. -/
theorem test_V23_lda_40_y :
    stepsTo (start 0x00 0x00 0x01 0x0200 0x24 [0xB1, 0x40] [(0x0040, 0xFF), (0x0041, 0x12), (0x1300, 0x6B)]) 0xB1
      [0x6B, 0x00, 0x01, 0xFD, 0x0202, 0x24, 6] = true := by decide

/-- V24, R108: LDA ($FF),Y. -/
theorem test_V24_lda_ff_y :
    stepsTo (start 0x00 0x00 0x02 0x0200 0x24 [0xB1, 0xFF] [(0x0000, 0x20), (0x00FF, 0x10), (0x0100, 0xEE), (0x2012, 0x6C)]) 0xB1
      [0x6C, 0x00, 0x02, 0xFD, 0x0202, 0x24, 5] = true := by decide

/-- V27, R109: LDX #$FF. -/
theorem test_V27_ldx_ff :
    stepsTo (start 0x00 0x00 0x00 0x0200 0x24 [0xA2, 0xFF] []) 0xA2
      [0x00, 0xFF, 0x00, 0xFD, 0x0202, 0xA4, 2] = true := by decide

/-- V26, R109: LDX #$00. -/
theorem test_V26_ldx_00 :
    stepsTo (start 0x00 0x07 0x00 0x0200 0x24 [0xA2, 0x00] []) 0xA2
      [0x00, 0x00, 0x00, 0xFD, 0x0202, 0x26, 2] = true := by decide

/-- V28, R110: LDX $10. -/
theorem test_V28_ldx_10 :
    stepsTo (start 0x00 0x00 0x00 0x0200 0x24 [0xA6, 0x10] [(0x0010, 0x11)]) 0xA6
      [0x00, 0x11, 0x00, 0xFD, 0x0202, 0x24, 3] = true := by decide

/-- V29, R111: LDX $FF,Y. -/
theorem test_V29_ldx_ff_y :
    stepsTo (start 0x00 0x77 0x05 0x0200 0x24 [0xB6, 0xFF] [(0x0004, 0x12), (0x0104, 0xEE)]) 0xB6
      [0x00, 0x12, 0x05, 0xFD, 0x0202, 0x24, 4] = true := by decide

/-- V30, R112: LDX $1234. -/
theorem test_V30_ldx_1234 :
    stepsTo (start 0x00 0x00 0x00 0x0200 0x24 [0xAE, 0x34, 0x12] [(0x1234, 0x13)]) 0xAE
      [0x00, 0x13, 0x00, 0xFD, 0x0203, 0x24, 4] = true := by decide

/-- V31, R113: LDX $12FF,Y. -/
theorem test_V31_ldx_12ff_y :
    stepsTo (start 0x00 0x00 0x01 0x0200 0x24 [0xBE, 0xFF, 0x12] [(0x1300, 0x14)]) 0xBE
      [0x00, 0x14, 0x01, 0xFD, 0x0203, 0x24, 5] = true := by decide

/-- V32, R113: LDX $1200,Y. -/
theorem test_V32_ldx_1200_y :
    stepsTo (start 0x00 0x00 0x01 0x0200 0x24 [0xBE, 0x00, 0x12] [(0x1201, 0x15)]) 0xBE
      [0x00, 0x15, 0x01, 0xFD, 0x0203, 0x24, 4] = true := by decide

/-- V34, R114: LDY #$80. -/
theorem test_V34_ldy_80 :
    stepsTo (start 0x00 0x00 0x00 0x0200 0x24 [0xA0, 0x80] []) 0xA0
      [0x00, 0x00, 0x80, 0xFD, 0x0202, 0xA4, 2] = true := by decide

/-- V33, R114: LDY #$00. -/
theorem test_V33_ldy_00 :
    stepsTo (start 0x00 0x00 0x07 0x0200 0x24 [0xA0, 0x00] []) 0xA0
      [0x00, 0x00, 0x00, 0xFD, 0x0202, 0x26, 2] = true := by decide

/-- V35, R115: LDY $10. -/
theorem test_V35_ldy_10 :
    stepsTo (start 0x00 0x00 0x00 0x0200 0x24 [0xA4, 0x10] [(0x0010, 0x16)]) 0xA4
      [0x00, 0x00, 0x16, 0xFD, 0x0202, 0x24, 3] = true := by decide

/-- V36, R116: LDY $FF,X. -/
theorem test_V36_ldy_ff_x :
    stepsTo (start 0x00 0x05 0x00 0x0200 0x24 [0xB4, 0xFF] [(0x0004, 0x17), (0x0104, 0xEE)]) 0xB4
      [0x00, 0x05, 0x17, 0xFD, 0x0202, 0x24, 4] = true := by decide

/-- V37, R117: LDY $1234. -/
theorem test_V37_ldy_1234 :
    stepsTo (start 0x00 0x00 0x00 0x0200 0x24 [0xAC, 0x34, 0x12] [(0x1234, 0x18)]) 0xAC
      [0x00, 0x00, 0x18, 0xFD, 0x0203, 0x24, 4] = true := by decide

/-- V38, R118: LDY $12FF,X. -/
theorem test_V38_ldy_12ff_x :
    stepsTo (start 0x00 0x01 0x00 0x0200 0x24 [0xBC, 0xFF, 0x12] [(0x1300, 0x19)]) 0xBC
      [0x00, 0x01, 0x19, 0xFD, 0x0203, 0x24, 5] = true := by decide

/-- V39, R118: LDY $1200,X. -/
theorem test_V39_ldy_1200_x :
    stepsTo (start 0x00 0x01 0x00 0x0200 0x24 [0xBC, 0x00, 0x12] [(0x1201, 0x1A)]) 0xBC
      [0x00, 0x01, 0x1A, 0xFD, 0x0203, 0x24, 4] = true := by decide

/-- V41, R121: STA $10. -/
theorem test_V41_sta_10 :
    storesTo (start 0x00 0x00 0x00 0x0200 0xA4 [0x85, 0x10] [(0x0010, 0xFF)]) 0x85
      [0x00, 0x00, 0x00, 0xFD, 0x0202, 0xA4, 3] 0x0010 0x00 = true := by decide

/-- V42, R122: STA $FF,X. -/
theorem test_V42_sta_ff_x :
    storesTo (start 0x5A 0x05 0x00 0x0200 0x24 [0x95, 0xFF] []) 0x95
      [0x5A, 0x05, 0x00, 0xFD, 0x0202, 0x24, 4] 0x0004 0x5A = true := by decide

/-- V43, R123: STA $1234. -/
theorem test_V43_sta_1234 :
    storesTo (start 0x5A 0x00 0x00 0x0200 0x24 [0x8D, 0x34, 0x12] []) 0x8D
      [0x5A, 0x00, 0x00, 0xFD, 0x0203, 0x24, 4] 0x1234 0x5A = true := by decide

/-- V52, R123: STA $0202. -/
theorem test_V52_sta_0202 :
    storesTo (start 0x5A 0x00 0x00 0x0200 0x24 [0x8D, 0x02, 0x02] []) 0x8D
      [0x5A, 0x00, 0x00, 0xFD, 0x0203, 0x24, 4] 0x0202 0x5A = true := by decide

/-- V44, R124: STA $12FF,X. -/
theorem test_V44_sta_12ff_x :
    storesTo (start 0x5A 0x01 0x00 0x0200 0x24 [0x9D, 0xFF, 0x12] []) 0x9D
      [0x5A, 0x01, 0x00, 0xFD, 0x0203, 0x24, 5] 0x1300 0x5A = true := by decide

/-- V47, R124: STA $FFFF,X. -/
theorem test_V47_sta_ffff_x :
    storesTo (start 0x5A 0x02 0x00 0x0200 0x24 [0x9D, 0xFF, 0xFF] []) 0x9D
      [0x5A, 0x02, 0x00, 0xFD, 0x0203, 0x24, 5] 0x0001 0x5A = true := by decide

/-- V46, R125: STA $12FF,Y. -/
theorem test_V46_sta_12ff_y :
    storesTo (start 0x5A 0x00 0x01 0x0200 0x24 [0x99, 0xFF, 0x12] []) 0x99
      [0x5A, 0x00, 0x01, 0xFD, 0x0203, 0x24, 5] 0x1300 0x5A = true := by decide

/-- V48, R126: STA ($20,X). -/
theorem test_V48_sta_20_x :
    storesTo (start 0x5A 0x04 0x00 0x0200 0x24 [0x81, 0x20] [(0x0024, 0x74), (0x0025, 0x20)]) 0x81
      [0x5A, 0x04, 0x00, 0xFD, 0x0202, 0x24, 6] 0x2074 0x5A = true := by decide

/-- V49, R126: STA ($FE,X). -/
theorem test_V49_sta_fe_x :
    storesTo (start 0x5A 0x01 0x00 0x0200 0x24 [0x81, 0xFE] [(0x0000, 0x12), (0x00FF, 0x34)]) 0x81
      [0x5A, 0x01, 0x00, 0xFD, 0x0202, 0x24, 6] 0x1234 0x5A = true := by decide

/-- V50, R127: STA ($40),Y. -/
theorem test_V50_sta_40_y :
    storesTo (start 0x5A 0x00 0x01 0x0200 0x24 [0x91, 0x40] [(0x0040, 0xFF), (0x0041, 0x12)]) 0x91
      [0x5A, 0x00, 0x01, 0xFD, 0x0202, 0x24, 6] 0x1300 0x5A = true := by decide

/-- V51, R127: STA ($40),Y. -/
theorem test_V51_sta_40_y :
    storesTo (start 0x5A 0x00 0x10 0x0200 0x24 [0x91, 0x40] [(0x0040, 0x00), (0x0041, 0x30)]) 0x91
      [0x5A, 0x00, 0x10, 0xFD, 0x0202, 0x24, 6] 0x3010 0x5A = true := by decide

/-- V55, R130: BRK. -/
theorem test_V55_brk :
    stepsTo (start 0x00 0x00 0x00 0x0200 0xA6 [0x00, 0xA9, 0xFF] []) 0x00
      [0x00, 0x00, 0x00, 0xFD, 0x0201, 0xB6, 7] = true := by decide

/-- V56, R130: BRK. -/
theorem test_V56_brk :
    stepsTo (start 0x00 0x00 0x00 0xFFFF 0x24 [0x00] []) 0x00
      [0x00, 0x00, 0x00, 0xFD, 0x0000, 0x34, 7] = true := by decide

/-- V57, R131: .byte $EA. -/
theorem test_V57_byte_ea :
    stepsTo (start 0x12 0x00 0x00 0x0200 0x24 [0xEA] []) 0xEA
      [0x12, 0x00, 0x00, 0xFD, 0x0201, 0x24, 0] = true := by decide

/-- V58, R131: .byte $FF. -/
theorem test_V58_byte_ff :
    stepsTo (start 0x00 0x00 0x00 0xFFFF 0x24 [0xFF] []) 0xFF
      [0x00, 0x00, 0x00, 0xFD, 0x0000, 0x24, 0] = true := by decide

/-- S6: from reset, `A9 FF` at 0xFFFC. It also shows a placed word that runs next. -/
theorem test_S6_placed_word :
    stepsTo (State.reset.withFetchWord 16 0xFFA9) 0xA9 [0xFF, 0, 0, 0xFD, 0xFFFE, 0xA4, 2] = true := by decide

/-- S7, second step: `B5 FF` with X = 5 at 0xFFFE; PC wraps. -/
theorem test_S7_pc_wraps :
    stepsTo (start 0x00 0x05 0x00 0xFFFE 0x24 [0xB5, 0xFF] [(0x0004, 0x7B)]) 0xB5
      [0x7B, 0x05, 0, 0xFD, 0x0000, 0x24, 4] = true := by decide

/-- V57: the report and the trace ports of the unknown byte 0xEA. -/
theorem test_V57_diagnostic :
    (nextOf (step (start 0x12 0 0 0x0200 0x24 [0xEA] []))).map (fun t => t.out) =
      some ⟨some ⟨0xEA, 0x0200⟩, some ⟨0xEA, 0x0200⟩⟩ := by decide

/-- V3's step leaves a trace and no report. -/
theorem test_trace_of_load :
    (nextOf (step (start 0 0 0 0x0200 0x24 [0xA9, 0x80] []))).map (fun t => t.out) =
      some ⟨none, some ⟨0xA9, 0x0200⟩⟩ := by decide

/-! ## Halting, reset and requests -/

/-- A Halted engine with a program byte at PC. -/
def haltedState : State := start 0x12 0x34 0x56 0x1234 0xB4 [0xA9, 0x01] [(0x0010, 0x5A)]

theorem test_step_halted : haltedState.halted = true ∧ faultOf (step haltedState) = some .halted := by decide
theorem test_V65_reset :
    seven haltedState.applyReset = [0, 0, 0, 0xFD, 0xFFFC, 0x24, 0] ∧ haltedState.applyReset.read 0x0010 = 0x5A ∧
    haltedState.applyReset.halted = false := by decide
theorem test_V67_step_request_while_halted : nextOf (serve false true haltedState) = some haltedState := by decide
/-- V68: reset, then the step from 0xFFFC, which here meets 0x00 (BRK). -/
theorem test_V68_reset_and_step : (nextOf (serve true true haltedState)).map seven = some [0, 0, 0, 0xFD, 0xFFFD, 0x34, 7] := by
  decide

/-! ## Accesses and the pipeline -/

/-- R91, row INDY, with V24's pointer that wraps in page 0. -/
theorem test_accesses_indy :
    accesses (start 0 0 0x02 0x0200 0x24 [0xB1, 0xFF] [(0x0000, 0x20), (0x00FF, 0x10)]) =
      [.read 0x0200, .read 0x0201, .read 0x00FF, .read 0x0000, .read 0x2012] := by decide

/-- R91, row ABSX of STA, with V44's store. -/
theorem test_accesses_sta_absx :
    accesses (start 0x5A 0x01 0 0x0200 0x24 [0x9D, 0xFF, 0x12] []) =
      [.read 0x0200, .read 0x0201, .read 0x0202, .write 0x1300 0x5A] := by decide

/-- The pipeline on V23, with its page cross. -/
theorem test_pipeline_V23 :
    (pipelineStep config (start 0 0 0x01 0x0200 0x24 [0xB1, 0x40] [(0x0040, 0xFF), (0x0041, 0x12), (0x1300, 0x6B)])).map
      seven = some [0x6B, 0, 0x01, 0xFD, 0x0202, 0x24, 6] := by decide

/-! ## Witnesses: states and operands that meet the hypotheses of the statements together -/

/-- A Running engine about to store A at 0x0205, the address after the store's own bytes (P3 of 95_test_vectors.md). -/
def storeAhead : State := start 0xA0 0 0 0x0202 0xA4 [0x8D, 0x05, 0x02, 0xEA] []

/-- A step that stores, in a state with the invariant. -/
theorem witness_invariant_and_step : storeAhead.Inv ∧ ∃ t, step storeAhead = .next t :=
  ⟨⟨by decide, by decide, by decide, by decide, by decide, by decide, by decide, by decide⟩, _, rfl⟩

/-- The bytes at PC decode. -/
theorem witness_decoded_at_pc :
    storeAhead.Running ∧ decode [storeAhead.code 0, storeAhead.code 1, storeAhead.code 2] = .instr (.staAbs 0x05 0x02) [] := by
  decide

theorem witness_placed_word : State.reset.Running ∧ decodeTableWord 16 0xFFA9 = some (.ldaImm 0xFF) := by decide

theorem witness_reset_of_equal_memories : haltedState.mem = haltedState.applyReset.mem ∧ haltedState ≠ haltedState.applyReset := by
  decide

/-- A meaning run with B already set. -/
theorem witness_exec_with_b_set : haltedState.flag .b = true ∧ ∃ t, exec (.ldaImm 0x01) haltedState = .next t :=
  ⟨by decide, _, rfl⟩

theorem witness_encoding : encode (.ldaAbsx 0xFF 0x12) = 0xBD :: [0xFF, 0x12] ∧ encode .brk = 0x00 :: [] := by decide

theorem witness_decoding : decode [0xBD, 0xFF, 0x12, 0x00] = .instr (.ldaAbsx 0xFF 0x12) [0x00] := by decide

/-- The first and the last unknown byte, and a known neighbour of each. -/
theorem witness_unknown_bytes :
    unknownByte 0x01 = true ∧ unknownByte 0xFF = true ∧ unknownByte 0x00 = false ∧ unknownByte 0xBE = false := by decide

/-- A step changes a byte of memory, and the byte is one of its writes. -/
theorem witness_memory_change :
    (nextOf (step storeAhead)).map (fun t => t.read 0x0205 != storeAhead.read 0x0205) = some true ∧
    Access.write 0x0205 0xA0 ∈ accesses storeAhead := by decide

/-- The stored byte lies at the next PC and is fetched there. -/
theorem witness_store_at_next_pc :
    (nextOf (step storeAhead)).map (fun t => (t.pc, t.code 0)) = some (0x0205, 0xA0) := by decide

/-- Each register changes in some step: LDA (V3), LDX (V27), LDY (V34). -/
theorem witness_register_changes :
    (nextOf (step (start 0 0 0 0x0200 0x24 [0xA9, 0x80] []))).map (fun t => t.a) = some 0x80 ∧
    (nextOf (step (start 0 0 0 0x0200 0x24 [0xA2, 0xFF] []))).map (fun t => t.x) = some 0xFF ∧
    (nextOf (step (start 0 0 0 0x0200 0x24 [0xA0, 0x80] []))).map (fun t => t.y) = some 0x80 := by decide

/-- A step and another memory that agrees with the first at every address the step reads. -/
theorem witness_other_memory :
    (∃ t, step storeAhead = .next t) ∧ Memory.write storeAhead.mem 0x3000 0x07 ≠ storeAhead.mem ∧
    ∀ b : Addr, .read b ∈ accesses storeAhead →
      Memory.read (Memory.write storeAhead.mem 0x3000 0x07) b.toNat = storeAhead.read b := by
  refine ⟨⟨_, rfl⟩, by decide, fun b hb => ?_⟩
  have hl : accesses storeAhead = [.read 0x0202, .read 0x0203, .read 0x0204, .write 0x0205 0xA0] := by decide
  simp only [hl, List.mem_cons, Access.read.injEq, List.not_mem_nil, reduceCtorEq, or_false] at hb
  rcases hb with rfl | rfl | rfl <;> decide

/-- A store and a load of the stored byte (V40): `STA $10`, then `LDX $10`. -/
theorem witness_store_then_load :
    (operandAccesses (.staZp 0x10) storeAhead).getLast? = some (.write 0x0010 0xA0) ∧
    ∃ t u, exec (.staZp 0x10) storeAhead = .next t ∧ (operandAccesses (.ldxZp 0x10) t).getLast? = some (.read 0x0010) ∧
      exec (.ldxZp 0x10) t = .next u :=
  ⟨by decide, _, _, rfl, rfl, rfl⟩

/-- The same pair with LDA and with LDY as the load (R120, round trip; R40). -/
theorem witness_store_then_other_loads :
    ∃ t, exec (.staZp 0x10) storeAhead = .next t ∧
      (operandAccesses (.ldaZp 0x10) t).getLast? = some (.read 0x0010) ∧ (∃ u, exec (.ldaZp 0x10) t = .next u) ∧
      (operandAccesses (.ldyZp 0x10) t).getLast? = some (.read 0x0010) ∧ ∃ u, exec (.ldyZp 0x10) t = .next u :=
  ⟨_, rfl, rfl, ⟨_, rfl⟩, rfl, _, rfl⟩

theorem witness_reachable : Reachable { State.reset with mem := [(0x10, 0x01)] } := .powerOn _ (by decide)

end Sys2Proof.Tests
end

section
/-! SUPPORT. The state (10_state.md): what a whole step does to registers, flags, SP, PC and CYC; the invariant of `Safety`
along every step and in every reachable state; and the statements this settles. -/

namespace Sys2Proof.Machine

/-! ## The opcode bytes of a family and of a length (R48, R50) -/

/-- The opcode bytes of a family, as `Safety` lists them. -/
def familyBytes : Family → List Byte
  | .lda => ldaBytes
  | .ldx => ldxBytes
  | .ldy => ldyBytes
  | .sta => staBytes
  | .brk => [0x00]

/-- The family whose instructions load a register. -/
def Reg.loadFamily : Reg → Family
  | .a => .lda
  | .x => .ldx
  | .y => .ldy

theorem opcode_mem_familyBytes (i : Instr) : i.opcode ∈ familyBytes i.family := by
  cases i <;> simp [Instr.opcode, encode, Instr.family, familyBytes, ldaBytes, ldxBytes, ldyBytes, staBytes]

theorem opcode_mem_of_family_eq {i : Instr} {f : Family} (h : i.family = f) : i.opcode ∈ familyBytes f :=
  h ▸ opcode_mem_familyBytes i

/-- No load opcode is a store, BRK or unknown. -/
theorem loadOpcode_not_other (r : Reg) :
    ∀ op ∈ familyBytes r.loadFamily, op ∉ staBytes ∧ unknownByte op = false ∧ op ≠ 0x00 := by
  cases r <;> decide

/-- An instruction's length read off its opcode byte. -/
theorem length_eq_of_opcode (i : Instr) :
    i.length = if i.opcode ∈ threeByteOpcodes then 3 else if i.opcode = 0x00 then 1 else 2 := by
  cases i <;> rfl

theorem unknownByte_opcode (i : Instr) : unknownByte i.opcode = false := by
  obtain ⟨fm, hfm, -⟩ := decodeOpcode_opcode i
  simp [unknownByte_eq_isNone, hfm]

theorem unknownByte_of_mem_threeByteOpcodes : ∀ op ∈ threeByteOpcodes, unknownByte op = false := by decide

/-! ## What a whole step does -/

/-- The state after the step of an unknown opcode (R131); `step_of_unknown` says so. -/
def State.afterUnknown (s : State) : State :=
  { s with pc := s.pc + 1#16, cyc := s.cyc + config.baseCycles (s.code 0),
           out := { diag := some ⟨s.code 0, s.pc⟩, trace := some ⟨s.code 0, s.pc⟩ } }

/-- The effects of a meaning do not see what the fetch changed: PC, CYC and the output ports. -/
theorem LoadEffect.of_afterFetch {r : Reg} {v : Byte} {i : Instr} {s t : State}
    (e : LoadEffect r v (s.afterFetch i) t) : LoadEffect r v s t :=
  { e with registers := fun q hq => (e.registers q hq).trans (afterFetch_reg s i q) }

theorem StoreEffect.of_afterFetch {ea : Addr} {i : Instr} {s t : State}
    (e : StoreEffect ea (s.afterFetch i) t) : StoreEffect ea s t :=
  { e with registers := fun q => (e.registers q).trans (afterFetch_reg s i q) }

theorem BreakEffect.of_afterFetch {i : Instr} {s t : State}
    (e : BreakEffect (s.afterFetch i) t) : BreakEffect s t :=
  { e with registers := fun q => (e.registers q).trans (afterFetch_reg s i q) }

/-- What a step does to registers, flags, SP and memory, by its opcode byte: a load of one register, a store of A, the
halt, or nothing. Proofs about all steps cite this. -/
theorem step_effect {s t : State} (h : step s = .next t) :
    (∃ r v, s.code 0 ∈ familyBytes r.loadFamily ∧ LoadEffect r v s t ∧ t.mem = s.mem) ∨
    (∃ ea : Addr, s.code 0 ∈ staBytes ∧ StoreEffect ea s t ∧ t.mem = Memory.write s.mem ea.toNat s.a) ∨
    (s.code 0 = 0x00 ∧ BreakEffect s t ∧ t.mem = s.mem) ∨
    (unknownByte (s.code 0) = true ∧ t = s.afterUnknown) := by
  rcases step_inv h with ⟨i, -, hop, he⟩ | hu
  · rw [hop]
    rcases exec_inv he with ⟨r, v, c, hf, e, -, hm⟩ | ⟨ea, hf, e, -, hm⟩ | ⟨rfl, e, -, hm⟩
    · have hr : i.family = r.loadFamily := by
        rcases hf with ⟨hf, rfl⟩ | ⟨hf, rfl⟩ | ⟨hf, rfl⟩ <;> exact hf
      exact .inl ⟨r, v, opcode_mem_of_family_eq hr, e.of_afterFetch, hm⟩
    · exact .inr (.inl ⟨ea.address, opcode_mem_of_family_eq hf, e.of_afterFetch, hm⟩)
    · exact .inr (.inr (.inl ⟨rfl, e.of_afterFetch, hm⟩))
  · exact .inr (.inr (.inr hu))

/-- A register that a step changes is the one it loads (R11 to R13), and SP stays (R14). -/
theorem step_registers {s t : State} (h : step s = .next t) :
    (∀ q : Reg, t.reg q ≠ s.reg q → s.code 0 ∈ familyBytes q.loadFamily) ∧ t.sp = s.sp := by
  rcases step_effect h with ⟨r, v, hop, e, -⟩ | ⟨ea, -, e, -⟩ | ⟨-, e, -⟩ | ⟨-, rfl⟩
  · refine ⟨fun q hq => ?_, e.stack⟩
    obtain rfl : q = r := by_contra fun hne => hq (e.registers q hne)
    exact hop
  · exact ⟨fun q hq => absurd (e.registers q) hq, e.stack⟩
  · exact ⟨fun q hq => absurd (e.registers q) hq, e.stack⟩
  · exact ⟨fun q hq => absurd (by cases q <;> rfl) hq, rfl⟩

theorem exec_pc {i : Instr} {s t : State} (h : exec i s = .next t) : t.pc = s.pc := by
  rcases exec_inv h with ⟨_, _, _, _, _, hframe, _⟩ | ⟨_, _, _, hframe, _⟩ | ⟨_, _, hframe, _⟩ <;> exact hframe.pc

/-- The step of a Running engine at an unknown opcode (R131). -/
theorem step_of_unknown {s : State} (hr : s.Running) (hu : unknownByte (s.code 0) = true) :
    step s = .next s.afterUnknown := by
  rcases step_running hr with ⟨i, hc, -⟩ | ⟨-, h⟩
  · rw [opcode_of_code hc, unknownByte_opcode] at hu
    cases hu
  · exact h

/-! ## Flags kept -/

theorem FlagsKeptBut.mono {fs gs : List Flag} {s t : State} (h : FlagsKeptBut fs s t) (hsub : fs ⊆ gs) :
    FlagsKeptBut gs s t :=
  fun f hf => h f (fun hm => hf (hsub hm))

theorem flagsKeptBut_of_sr_eq {fs : List Flag} {s t : State} (h : t.sr = s.sr) : FlagsKeptBut fs s t :=
  fun f _ => flag_of_sr_eq h f

/-! ## The invariant (R14, R20, R21, R31) -/

/-- The invariant passes to a state with canonical memory, the same SP, the same flags but Z, N and B, and Z and N not
both set. -/
theorem State.Inv.of_frame {s t : State} (h : s.Inv) (hm : Memory.wf t.mem) (hsp : t.sp = s.sp)
    (hf : FlagsKeptBut [.z, .n, .b] s t) (hzn : ¬(t.flag .z = true ∧ t.flag .n = true)) : t.Inv where
  memory := hm
  stack := hsp.trans h.stack
  overflow := (hf .v (by decide)).trans h.overflow
  unused := (hf .u (by decide)).trans h.unused
  decimal := (hf .d (by decide)).trans h.decimal
  interrupt := (hf .i (by decide)).trans h.interrupt
  carry := (hf .c (by decide)).trans h.carry
  notBothZN := hzn

theorem step_keeps_inv {s t : State} (hs : s.Inv) (h : step s = .next t) : t.Inv := by
  rcases step_effect h with ⟨r, v, -, e, hm⟩ | ⟨ea, -, e, hm⟩ | ⟨-, e, hm⟩ | ⟨-, rfl⟩
  · refine hs.of_frame (hm ▸ hs.memory) e.stack (e.flags.mono (by decide)) ?_
    rw [e.zero, e.negative]
    rintro ⟨hz, hn⟩
    rw [of_decide_eq_true hz] at hn
    cases hn
  · refine hs.of_frame (hm ▸ write_wf hs.memory _ _) e.stack (flagsKeptBut_of_sr_eq e.status) ?_
    rw [flag_of_sr_eq e.status, flag_of_sr_eq e.status]
    exact hs.notBothZN
  · refine hs.of_frame (hm ▸ hs.memory) e.stack (e.flags.mono (by decide)) ?_
    rw [e.flags .z (by decide), e.flags .n (by decide)]
    exact hs.notBothZN
  · exact hs.of_frame hs.memory rfl (flagsKeptBut_of_sr_eq rfl) hs.notBothZN

/-- Canonical memory and reset's SP and SR give the invariant. -/
theorem inv_of_reset_values {s : State} (hm : Memory.wf s.mem) (hsp : s.sp = 0xFD) (hsr : s.sr = 0x24) : s.Inv := by
  have hflag (f : Flag) : s.flag f = getFlag 0x24 f := by rw [State.flag, hsr]
  refine ⟨hm, hsp, hflag .v, hflag .u, hflag .d, hflag .i, hflag .c, ?_⟩
  rw [hflag, hflag]
  decide

theorem applyReset_inv {s : State} (hm : Memory.wf s.mem) : s.applyReset.Inv := inv_of_reset_values hm rfl rfl

theorem inv_of_reachable {s : State} (h : Reachable s) : s.Inv := by
  induction h with
  | powerOn m hm => exact inv_of_reset_values hm rfl rfl
  | stepped _ hs ih => exact step_keeps_inv ih hs
  | resetTo _ ih => exact applyReset_inv ih.memory

/-- The flags that the invariant fixes leave SR six values: B free, and Z and N not both set. -/
theorem sr_mem_of_fixed_flags : ∀ sr : Byte,
    getFlag sr .v = false → getFlag sr .u = true → getFlag sr .d = false → getFlag sr .i = true →
    getFlag sr .c = false → ¬(getFlag sr .z = true ∧ getFlag sr .n = true) →
    sr ∈ ([0x24, 0x26, 0xA4, 0x34, 0x36, 0xB4] : List Byte) := by decide

theorem State.Inv.sr_mem {s : State} (h : s.Inv) : s.sr ∈ ([0x24, 0x26, 0xA4, 0x34, 0x36, 0xB4] : List Byte) :=
  sr_mem_of_fixed_flags s.sr h.overflow h.unused h.decimal h.interrupt h.carry h.notBothZN

/-! ## CYC is read by its own update only (R22, R169) -/

/-- From `s`, whatever its CYC, `f` answers one next state but for CYC, and adds one amount to CYC. -/
def CycBlind (f : State → Host.Outcome State Fault Refusal) (s : State) : Prop :=
  ∃ (t : State) (k : Nat), ∀ n, f { s with cyc := n } = .next { t with cyc := n + k }

theorem CycBlind.next_of_next {f : State → Host.Outcome State Fault Refusal} {s t : State} (hf : CycBlind f s)
    (h : f s = .next t) (n : Nat) : f { s with cyc := n } = .next { t with cyc := n + (t.cyc - s.cyc) } := by
  obtain ⟨u, k, hu⟩ := hf
  obtain rfl : t = { u with cyc := s.cyc + k } := by
    have hs := hu s.cyc
    rw [h] at hs
    exact Host.Outcome.next.inj hs
  rw [hu, Nat.add_sub_cancel_left]

theorem load_cycBlind (f : Family) (m : Mode) (r : Reg) {v : State → Byte} {crossed : State → Bool} {s : State}
    (hv : ∀ n, v { s with cyc := n } = v s) (hc : ∀ n, crossed { s with cyc := n } = crossed s) :
    CycBlind (fun u => load f m r (v u) (crossed u) u) s := by
  refine ⟨(s.setReg r (v s)).setZN (v s), penaltyOf f m (crossed s), fun n => ?_⟩
  simp only [load, chargePenalty_eq, hv, hc]
  cases r <;> rfl

theorem storeA_cycBlind (m : Mode) {ea : State → Resolved} {s : State} (hea : ∀ n, ea { s with cyc := n } = ea s) :
    CycBlind (fun u => storeA m (ea u) u) s := by
  refine ⟨s.write (ea s).address s.a, penaltyOf .sta m (ea s).crossed, fun n => ?_⟩
  simp only [storeA, chargePenalty_eq, hea]
  rfl

/-- No operand value and no effective address depends on CYC, so no meaning does. -/
theorem exec_cycBlind (i : Instr) (s : State) : CycBlind (exec i) s := by
  cases i
  case brk => exact ⟨s.halt, 0, fun _ => rfl⟩
  case staZp | staZpx | staAbs | staAbsx | staAbsy | staIndx | staIndy => exact storeA_cycBlind _ fun _ => rfl
  case ldaImm | ldaZp | ldaZpx | ldaAbs | ldaAbsx | ldaAbsy | ldaIndx | ldaIndy =>
    exact load_cycBlind .lda _ .a (fun _ => rfl) (fun _ => rfl)
  case ldxImm | ldxZp | ldxZpy | ldxAbs | ldxAbsy => exact load_cycBlind .ldx _ .x (fun _ => rfl) (fun _ => rfl)
  case ldyImm | ldyZp | ldyZpx | ldyAbs | ldyAbsx => exact load_cycBlind .ldy _ .y (fun _ => rfl) (fun _ => rfl)

theorem step_cycBlind {s : State} (hr : s.Running) : CycBlind step s := by
  rcases step_running hr with ⟨i, hc, -⟩ | ⟨hd, -⟩
  · obtain ⟨t, k, ht⟩ := exec_cycBlind i (s.afterFetch i)
    refine ⟨t, config.baseCycles (s.code 0) + k, fun n => ?_⟩
    rw [step_of_code (s := { s with cyc := n }) hr hc, ← Nat.add_assoc]
    exact ht (n + config.baseCycles (s.code 0))
  · refine ⟨s.afterUnknown, config.baseCycles (s.code 0), fun n => ?_⟩
    exact step_of_unknown (s := { s with cyc := n }) hr (unknownByte_iff.2 hd)

/-! ## The statements -/

/-- Settles O36: each effect a step can have keeps the invariant. -/
theorem everyStepKeepsTheInvariant : Obligations.EveryStepKeepsTheInvariant :=
  fun _ _ => step_keeps_inv

/-- Settles O3, by reading each flag as its bit number. -/
theorem flagsAreSingleBitsOfSR : Obligations.FlagsAreSingleBitsOfSR := by
  refine ⟨fun sr => ?_, getFlag_setFlag, fun s => ?_⟩
  · simp only [getFlag_eq_bit, Flag.bit, and_self]
  · simp only [State.flagBits, List.map_cons, List.map_nil, State.flag, getFlag_eq_bit, Flag.bit]

/-- Settles O19: the fetch moves PC on by the length, and no meaning moves it. -/
theorem programCounterMovesByTheLength : Obligations.ProgramCounterMovesByTheLength := by
  intro s t h
  rcases step_inv h with ⟨i, -, hop, he⟩ | ⟨hu, rfl⟩
  · have hpc : t.pc = s.pc + BitVec.ofNat 16 i.length := exec_pc he
    rw [hpc, length_eq_of_opcode, hop]
    refine ⟨fun h3 => by rw [if_pos h3]; rfl, fun h1 => ?_, fun h3 _ h0 => by rw [if_neg h3, if_neg h0]; rfl⟩
    have h0 : i.opcode = 0x00 := h1.resolve_left (by simp [unknownByte_opcode])
    rw [h0]
    rfl
  · refine ⟨fun h3 => ?_, fun _ => rfl, fun _ hk => ?_⟩
    · simp [unknownByte_of_mem_threeByteOpcodes _ h3] at hu
    · simp [hk] at hu

/-- Settles O33: the flag writers by the effect of the step; the six values by the invariant of reachable states. -/
theorem flagWritersAndReachableStatus : Obligations.FlagWritersAndReachableStatus := by
  refine ⟨fun s t h => ?_, fun s hs => (inv_of_reachable hs).sr_mem⟩
  rcases step_effect h with ⟨r, v, hop, e, -⟩ | ⟨ea, -, e, -⟩ | ⟨hop, e, -⟩ | ⟨-, rfl⟩
  · obtain ⟨hsta, hknown, hbrk⟩ := loadOpcode_not_other r _ hop
    exact ⟨fun _ => e.flags, fun h' => by simp [hsta, hknown] at h', fun h' => absurd h' hbrk⟩
  · exact ⟨fun _ => flagsKeptBut_of_sr_eq e.status, fun _ => e.status, fun _ => flagsKeptBut_of_sr_eq e.status⟩
  · rw [hop]
    exact ⟨fun h' => absurd h' (by decide), fun h' => absurd h' (by decide), fun _ => e.flags⟩
  · exact ⟨fun _ => flagsKeptBut_of_sr_eq rfl, fun _ => rfl, fun _ => flagsKeptBut_of_sr_eq rfl⟩

/-- Settles O34: a register that a step changes is the one it loads. -/
theorem registersChangeOnlyInTheirLoads : Obligations.RegistersChangeOnlyInTheirLoads := by
  intro s t h
  obtain ⟨hreg, hsp⟩ := step_registers h
  exact ⟨hreg .a, hreg .x, hreg .y, hsp⟩

/-- Settles O41: every meaning and the fetch around it are blind to CYC. -/
theorem cycNeverInfluencesTheStep : Obligations.CycNeverInfluencesTheStep :=
  fun _ _ n h => (step_cycBlind (running_of_step h)).next_of_next h n

/-- Settles O1, each item by the assignment of the reset operation. -/
theorem resetAssignsTheStatedState : Obligations.ResetAssignsTheStatedState := by
  refine ⟨fun s => ⟨rfl, rfl, rfl, rfl, rfl, rfl, rfl, rfl, ?_, ?_⟩, rfl, rfl, rfl, rfl, rfl, rfl, rfl⟩
  · exact (by decide : getFlag 0x24 .b = false)
  · exact code_zero _

/-- Settles O37: reset's SP and SR, with canonical memory, give the invariant. -/
theorem resetHasTheInvariant : Obligations.ResetHasTheInvariant :=
  ⟨inv_of_reset_values reset_mem_wf rfl rfl, fun _ => applyReset_inv⟩

end Sys2Proof.Machine
end

section
/-! SUPPORT. The memory (20_memory.md): the port and the canonical form, bytes that a loader places, what a step reads and
writes; and the statements this settles. -/

namespace Sys2Proof.Machine

/-! ## The port (R31) -/

theorem read_mod (m : Memory) (a : Nat) : Memory.read m (a % memorySize) = Memory.read m a := by
  rw [Memory.read, Memory.read, Nat.mod_mod]

theorem write_mod (m : Memory) (a : Nat) (v : Byte) : Memory.write m (a % memorySize) v = Memory.write m a v := by
  rw [Memory.write, Memory.write, Nat.mod_mod]

theorem read_of_mem_eq_write {s t : State} {ea : Addr} {v : Byte} (h : t.mem = Memory.write s.mem ea.toNat v) (b : Addr) :
    t.read b = if b = ea then v else s.read b :=
  (read_of_mem_eq (s := s.write ea v) h b).trans (State.read_write s ea b v)

/-! ## The canonical form (R30; log entry 1) -/

/-- A key that reads as a byte that must be listed is listed. -/
theorem mem_of_lookup_ne {m : Memory} {k : Nat} (h : Memory.lookup m k ≠ unlistedByte) :
    (k, Memory.lookup m k) ∈ m := by
  induction m with
  | nil => exact absurd rfl h
  | cons c m ih =>
    unfold Memory.lookup at h ⊢
    split at h
    · next hk => simp [← hk]
    · next hk => simp [hk, ih h]

/-- Where addresses rise, the byte listed at an address is the one it reads as. -/
theorem lookup_of_mem {m : Memory} (hm : m.Pairwise (fun c d => c.1 < d.1)) {c : Host.Cell} (hc : c ∈ m) :
    Memory.lookup m c.1 = c.2 := by
  induction m with
  | nil => cases hc
  | cons d m ih =>
    obtain ⟨hd, hm⟩ := List.pairwise_cons.1 hm
    rcases List.mem_cons.1 hc with rfl | hc
    · simp [Memory.lookup]
    · simp [Memory.lookup, (hd c hc).ne, ih hm hc]

/-- A cell of a canonical memory is a cell of every memory that reads alike. -/
theorem mem_of_reads_alike {m m' : Memory} (hm : Memory.wf m) (h : ∀ a < memorySize, Memory.read m a = Memory.read m' a)
    {c : Host.Cell} (hc : c ∈ m) : c ∈ m' := by
  obtain ⟨hrise, hcells⟩ := hm
  obtain ⟨hlt, hne⟩ := hcells c hc
  have hl : Memory.lookup m' c.1 = c.2 := by
    rw [← lookup_of_mem hrise hc]
    simpa [Memory.read, Nat.mod_eq_of_lt hlt] using (h c.1 hlt).symm
  have hmem := mem_of_lookup_ne (hl ▸ hne)
  rwa [hl] at hmem

/-! ## Bytes that a loader places (R42, R165; log entry 6) -/

theorem add16_one_add (a : Addr) (k : Nat) : add16 a 1 + BitVec.ofNat 16 k = a + BitVec.ofNat 16 (k + 1) := by
  rw [Nat.add_comm k 1, BitVec.ofNat_add, ← BitVec.add_assoc]
  rfl

/-- Loading changes nothing but memory. -/
theorem loadBytes_eq (bs : List Byte) : ∀ (s : State) (a : Addr),
    s.loadBytes a bs = { s with mem := (s.loadBytes a bs).mem } := by
  induction bs with
  | nil => exact fun _ _ => rfl
  | cons b bs ih => exact fun s a => ih _ _

theorem loadBytes_sr (s : State) (a : Addr) (bs : List Byte) : (s.loadBytes a bs).sr = s.sr := by rw [loadBytes_eq]

theorem loadBytes_pc (s : State) (a : Addr) (bs : List Byte) : (s.loadBytes a bs).pc = s.pc := by rw [loadBytes_eq]

/-- Loading leaves every address alone that is not one of those it fills. -/
theorem loadBytes_read_other (bs : List Byte) : ∀ (s : State) (a b : Addr),
    (∀ k < bs.length, b ≠ a + BitVec.ofNat 16 k) → (s.loadBytes a bs).read b = s.read b := by
  induction bs with
  | nil => exact fun _ _ _ _ => rfl
  | cons v bs ih =>
    intro s a b hb
    have hfirst : b ≠ a := by simpa using hb 0 (Nat.succ_pos _)
    rw [State.loadBytes, ih _ _ _ fun k hk => add16_one_add a k ▸ hb (k + 1) (Nat.succ_lt_succ hk), State.read_write,
      if_neg hfirst]

/-- Loading at most as many bytes as memory has puts each at its place, counted from the first and wrapping. -/
theorem loadBytes_read (bs : List Byte) : ∀ (s : State) (a : Addr), bs.length ≤ memorySize →
    ∀ (k : Nat) (hk : k < bs.length), (s.loadBytes a bs).read (a + BitVec.ofNat 16 k) = bs[k] := by
  induction bs with
  | nil => exact fun _ _ _ k hk => absurd hk (Nat.not_lt_zero k)
  | cons v bs ih =>
    intro s a hlen k hk
    simp only [List.length_cons, memorySize] at hlen hk
    rw [State.loadBytes]
    cases k with
    | zero =>
      have hlater : ∀ k < bs.length, a + BitVec.ofNat 16 0 ≠ add16 a 1 + BitVec.ofNat 16 k := by
        intro k hk
        rw [add16_one_add]
        bv_omega
      rw [loadBytes_read_other _ _ _ _ hlater, State.read_write]
      simp
    | succ k =>
      rw [← add16_one_add]
      exact ih _ _ (by rw [memorySize]; omega) k (by omega)

/-- The bytes at PC after placing a word are the bytes of the word. -/
theorem withFetchWord_code (s : State) (nbits w : Nat) :
    (List.range 3).map (s.withFetchWord nbits w).code = tableWordBytes nbits w := by
  refine List.ext_getElem rfl fun k _ hk => ?_
  rw [List.getElem_map, List.getElem_range, State.code, State.withFetchWord, loadBytes_pc]
  exact loadBytes_read (tableWordBytes nbits w) s s.pc (by decide : 3 ≤ memorySize) k hk

/-- Bytes that decode to an instruction begin with its encoding. -/
theorem encode_append_of_decode {bs rest : List Byte} {i : Instr} (h : decode bs = .instr i rest) :
    bs = encode i ++ rest := by
  unfold decode at h
  split at h
  · cases h
  · split at h <;> cases h
    case h_2 hd => simp [show encode i = _ from decodeOpcode_encodesAs hd]
    case h_3 b hd => simp [show encode _ = _ from decodeOpcode_encodesAs hd b]
    case h_4 lo hi hd => simp [show encode _ = _ from decodeOpcode_encodesAs hd lo hi]

/-- Where the three bytes at PC decode to an instruction, the bytes at PC are those of the instruction. -/
theorem code_of_decode {s : State} {i : Instr} {rest : List Byte}
    (h : decode ((List.range 3).map s.code) = .instr i rest) : encode i = (List.range i.length).map s.code := by
  have hlen : i.length ≤ 3 := by
    rw [length_eq_of_opcode]
    split_ifs <;> decide
  calc encode i = (encode i ++ rest).take i.length := by rw [← encode_length, List.take_left]
    _ = ((List.range 3).map s.code).take i.length := by rw [← encode_append_of_decode h]
    _ = (List.range i.length).map s.code := by rw [← List.map_take, List.take_range, Nat.min_eq_left hlen]

/-! ## The accesses of a step (R91) -/

/-- Where the bytes at PC are those of `i`, the fetch answers `i`. -/
theorem fetch_of_code {s : State} {i : Instr} (hc : encode i = (List.range i.length).map s.code) :
    s.fetch = (.known i, s.afterFetch i) := by
  rcases fetch_cases s with ⟨j, hj, hcj⟩ | ⟨hd, -⟩
  · have hlen : j.length = i.length := by
      rw [length_eq_of_opcode, length_eq_of_opcode i, ← opcode_of_code hc, ← opcode_of_code hcj]
    obtain rfl : j = i := encode_inj (by rw [hcj, hc, hlen])
    exact hj
  · exact absurd (opcode_of_code hc).symm (decodeOpcode_eq_none.1 hd i)

theorem codeReads_eq (n : Nat) : ∀ a : Addr,
    codeReads a n = ((List.range n).map (fun k => a + BitVec.ofNat 16 k)).map .read := by
  induction n with
  | zero => exact fun _ => rfl
  | succ n ih =>
    intro a
    simp only [codeReads, ih, List.range_succ_eq_map, List.map_cons, List.map_map, Function.comp_def, add16_one_add]
    simp

/-- The meaning's accesses do not see what the fetch changed: PC, CYC and the output ports. -/
theorem operandAccesses_afterFetch (i : Instr) (s : State) :
    operandAccesses i (s.afterFetch i) = operandAccesses i s := by
  cases i <;> rfl

/-- The accesses of a step that runs `i`: one read for each of its bytes, then those of its meaning. -/
theorem accesses_of_code {s : State} {i : Instr} (hr : s.Running) (hc : encode i = (List.range i.length).map s.code) :
    accesses s = ((List.range i.length).map (fun k => s.pc + BitVec.ofNat 16 k)).map .read ++ operandAccesses i s := by
  have hh : s.halted = false := hr
  rw [← codeReads_eq, ← operandAccesses_afterFetch i s]
  simp [accesses, hh, fetch_of_code hc]

/-- The step of an unknown opcode reads the opcode alone. -/
theorem accesses_of_unknown {s : State} (hr : s.Running) (hu : unknownByte (s.code 0) = true) :
    accesses s = [.read s.pc] := by
  have hh : s.halted = false := hr
  rcases fetch_cases s with ⟨i, -, hc⟩ | ⟨-, hf⟩
  · rw [opcode_of_code hc, unknownByte_opcode] at hu
    cases hu
  · simp [accesses, hh, hf]

/-! ## What a step writes (R74, R120) -/

/-- The accesses of a meaning and what it is: reads alone where memory stays, or reads and then the one write of a
store. -/
theorem operandAccesses_cases (i : Instr) (s : State) :
    (∃ reads : List Addr, operandAccesses i s = reads.map .read ∧ ∀ t, exec i s = .next t → t.mem = s.mem) ∨
    (∃ (reads : List Addr) (ea : Resolved), operandAccesses i s = reads.map .read ++ [.write ea.address s.a] ∧
      exec i s = storeA i.mode ea s) := by
  have hload (f : Family) (m : Mode) (r : Reg) (v : Byte) (c : Bool) :
      ∀ t, load f m r v c s = .next t → t.mem = s.mem := by
    rintro t ⟨⟩
    simp
  cases i
  case brk => exact .inl ⟨[], rfl, by rintro t ⟨⟩; rfl⟩
  case ldaImm | ldxImm | ldyImm => exact .inl ⟨[], rfl, hload _ _ _ _ _⟩
  case ldaZp | ldaZpx | ldaAbs | ldaAbsx | ldaAbsy | ldxZp | ldxZpy | ldxAbs | ldxAbsy | ldyZp | ldyZpx | ldyAbs |
      ldyAbsx =>
    exact .inl ⟨[_], rfl, hload _ _ _ _ _⟩
  case ldaIndx | ldaIndy => exact .inl ⟨[_, _, _], rfl, hload _ _ _ _ _⟩
  case staZp | staZpx | staAbs | staAbsx | staAbsy => exact .inr ⟨[], _, rfl, rfl⟩
  case staIndx | staIndy => exact .inr ⟨[_, _], _, rfl, rfl⟩

/-- What a step does at the memory port: reads that leave memory as it is, or reads and then one write of A, which is all
that memory gets. -/
theorem step_memory {s t : State} (h : step s = .next t) :
    (∃ reads : List Addr, accesses s = reads.map .read ∧ t.mem = s.mem) ∨
    (∃ (reads : List Addr) (ea : Addr), accesses s = reads.map .read ++ [.write ea s.a] ∧
      t.mem = Memory.write s.mem ea.toNat s.a) := by
  have hr := running_of_step h
  rcases step_inv h with ⟨i, hc, -, he⟩ | ⟨hu, rfl⟩
  · have hacc := accesses_of_code hr hc
    rw [← operandAccesses_afterFetch i s] at hacc
    rcases operandAccesses_cases i (s.afterFetch i) with ⟨reads, ho, hmem⟩ | ⟨reads, ea, ho, hx⟩
    · exact .inl ⟨_ ++ reads, by rw [hacc, ho, List.map_append], hmem t he⟩
    · obtain ⟨u, hu, -, -, hmem⟩ := storeA_spec i.mode ea (s.afterFetch i)
      obtain rfl : u = t := Host.Outcome.next.inj (hu.symm.trans (hx.symm.trans he))
      exact .inr ⟨_ ++ reads, ea.address, by rw [hacc, ho, List.map_append, List.append_assoc]; rfl, hmem⟩
  · exact .inl ⟨[s.pc], accesses_of_unknown hr hu, rfl⟩

/-- A write among a step's accesses is of A, and is the whole change of memory. -/
theorem mem_of_write_mem_accesses {s t : State} {b : Addr} {v : Byte} (h : step s = .next t)
    (hw : .write b v ∈ accesses s) : v = s.a ∧ t.mem = Memory.write s.mem b.toNat s.a := by
  rcases step_memory h with ⟨reads, hacc, -⟩ | ⟨reads, ea, hacc, hmem⟩
  · simp [hacc] at hw
  · rw [hacc] at hw
    obtain ⟨rfl, rfl⟩ : b = ea ∧ v = s.a := by simpa using hw
    exact ⟨rfl, hmem⟩

/-! ## What a step reads (R91) -/

/-- Two outcomes that are next states which differ at most in memory. -/
def NextButMem (o o' : Host.Outcome State Fault Refusal) : Prop :=
  ∃ (t : State) (m : Memory), o = .next t ∧ o' = .next { t with mem := m }

section
variable {s : State} {m : Memory}

theorem load_nextButMem (f : Family) (md : Mode) (r : Reg) (v : Byte) (c : Bool) :
    NextButMem (load f md r v c s) (load f md r v c { s with mem := m }) := by
  refine ⟨_, m, rfl, ?_⟩
  simp only [load, chargePenalty_eq]
  cases r <;> rfl

theorem storeA_nextButMem (md : Mode) {ea ea' : Resolved} (hea : ea' = ea) :
    NextButMem (storeA md ea s) (storeA md ea' { s with mem := m }) := by
  refine ⟨_, Memory.write m ea.address.toNat s.a, rfl, ?_⟩
  simp only [storeA, chargePenalty_eq, hea]
  rfl

/-- A load from one address, where the other memory holds the same byte. -/
theorem loadFrom_nextButMem (f : Family) (md : Mode) (r : Reg) {ea ea' : Resolved} (hea : ea' = ea)
    (hd : Memory.read m ea.address.toNat = s.read ea.address) :
    NextButMem (loadFrom f md r ea s) (loadFrom f md r ea' { s with mem := m }) := by
  subst hea
  have hv : State.read { s with mem := m } ea'.address = s.read ea'.address := hd
  rw [loadFrom, loadFrom, hv]
  exact load_nextButMem f md r _ _

/-- INDX sees another memory through its pointer alone. -/
theorem resolveIndx_of_pointer {b : Byte}
    (hp : State.readPointer { s with mem := m } (add8 b s.x) = s.readPointer (add8 b s.x)) :
    resolveIndx b { s with mem := m } = resolveIndx b s := congrArg (Resolved.mk · false) hp

/-- INDY sees another memory through its pointer alone. -/
theorem resolveIndy_of_pointer {b : Byte} (hp : State.readPointer { s with mem := m } b = s.readPointer b) :
    resolveIndy b { s with mem := m } = resolveIndy b s := congrArg (indexed · s.y) hp

/-- A meaning depends on memory at the addresses it reads alone: neither its accesses nor its next state, but for memory,
see another memory that agrees there. -/
theorem exec_of_agree {i : Instr}
    (h : ∀ b : Addr, .read b ∈ operandAccesses i s → Memory.read m b.toNat = s.read b) :
    operandAccesses i { s with mem := m } = operandAccesses i s ∧
      NextButMem (exec i s) (exec i { s with mem := m }) := by
  have hpointer (p : Byte) (l : List Access) (hl : operandAccesses i s = pointerReads p ++ l) :
      State.readPointer { s with mem := m } p = s.readPointer p := by
    rw [hl] at h
    exact congrArg₂ pair (h _ (.tail _ (.head _))) (h _ (.head _))
  cases i
  case brk => exact ⟨rfl, _, m, rfl, rfl⟩
  case ldaImm | ldxImm | ldyImm => exact ⟨rfl, load_nextButMem _ _ _ _ _⟩
  case ldaZp | ldaZpx | ldaAbs | ldaAbsx | ldaAbsy | ldxZp | ldxZpy | ldxAbs | ldxAbsy | ldyZp | ldyZpx | ldyAbs |
      ldyAbsx =>
    exact ⟨rfl, loadFrom_nextButMem _ _ _ rfl (h _ (.head _))⟩
  case staZp | staZpx | staAbs | staAbsx | staAbsy => exact ⟨rfl, storeA_nextButMem _ rfl⟩
  case ldaIndx =>
    have hea := resolveIndx_of_pointer (hpointer _ _ rfl)
    exact ⟨by simp [operandAccesses, hea], loadFrom_nextButMem _ _ _ hea (h _ (.tail _ (.tail _ (.head _))))⟩
  case ldaIndy =>
    have hea := resolveIndy_of_pointer (hpointer _ _ rfl)
    exact ⟨by simp [operandAccesses, hea], loadFrom_nextButMem _ _ _ hea (h _ (.tail _ (.tail _ (.head _))))⟩
  case staIndx =>
    have hea := resolveIndx_of_pointer (hpointer _ _ rfl)
    exact ⟨by simp [operandAccesses, hea], storeA_nextButMem _ hea⟩
  case staIndy =>
    have hea := resolveIndy_of_pointer (hpointer _ _ rfl)
    exact ⟨by simp [operandAccesses, hea], storeA_nextButMem _ hea⟩

/-- A whole step, too, depends on memory at the addresses it reads alone. -/
theorem step_of_agree (hr : s.Running) (h : ∀ b : Addr, .read b ∈ accesses s → Memory.read m b.toNat = s.read b) :
    accesses { s with mem := m } = accesses s ∧ NextButMem (step s) (step { s with mem := m }) := by
  have hr' : State.Running { s with mem := m } := hr
  rcases step_running hr with ⟨i, hc, he⟩ | ⟨hd, he⟩
  · have hacc := accesses_of_code hr hc
    have hcode : encode i = (List.range i.length).map (State.code { s with mem := m }) := by
      rw [hc]
      refine List.map_congr_left fun k hk => (h _ ?_).symm
      rw [hacc]
      exact List.mem_append_left _ (List.mem_map_of_mem (List.mem_map_of_mem hk))
    have hoperand : ∀ b : Addr, .read b ∈ operandAccesses i s → Memory.read m b.toNat = s.read b :=
      fun b hb => h b (hacc ▸ List.mem_append_right _ hb)
    have hop : State.code { s with mem := m } 0 = s.code 0 := (opcode_of_code hcode).trans (opcode_of_code hc).symm
    have hafter : State.afterFetch { s with mem := m } i = { s.afterFetch i with mem := m } := by
      simp only [State.afterFetch, hop]
    constructor
    · rw [accesses_of_code hr' hcode, hacc, (exec_of_agree hoperand).1]
    · rw [step_of_code hr' hcode, he, hafter]
      rw [← operandAccesses_afterFetch i s] at hoperand
      exact (exec_of_agree hoperand).2
  · have hu := unknownByte_iff.2 hd
    have hacc := accesses_of_unknown hr hu
    have hop : State.code { s with mem := m } 0 = s.code 0 := by
      rw [code_zero, code_zero]
      exact h s.pc (hacc ▸ .head _)
    have hu' : unknownByte (State.code { s with mem := m } 0) = true := hop ▸ hu
    refine ⟨(accesses_of_unknown hr' hu').trans hacc.symm, _, m, step_of_unknown hr hu, ?_⟩
    rw [step_of_unknown hr' hu']
    simp only [State.afterUnknown, hop]

end

/-! ## The statements -/

/-- Settles O7: the port reduces its address modulo the memory size, and `read_write` says what a read gets after a
write. -/
theorem memoryPortWritesExactlyOneByte : Obligations.MemoryPortWritesExactlyOneByte :=
  fun m a b v => ⟨(read_mod m a).symm, (write_mod m a v).symm, read_write m a b v⟩

/-- Settles O8: two lists that rise by address and have the same cells are equal. -/
theorem canonicalMemoriesReadingAlikeAreEqual : Obligations.CanonicalMemoriesReadingAlikeAreEqual := by
  intro m m' hm hm' h
  have hirrefl : Std.Irrefl (fun c d : Host.Cell => c.1 < d.1) := ⟨fun c => lt_irrefl c.1⟩
  have hantisymm : Std.Antisymm (fun c d : Host.Cell => c.1 < d.1) := ⟨fun _ _ hcd hdc => absurd hdc hcd.asymm⟩
  exact hm.1.eq_of_mem_iff hm'.1 fun c =>
    ⟨mem_of_reads_alike hm h, mem_of_reads_alike hm' fun a ha => (h a ha).symm⟩

/-- Settles O15: the bytes at PC are the placed word's, which begin with the instruction's encoding. -/
theorem placedWordIsRunNext : Obligations.PlacedWordIsRunNext := by
  intro s nbits w i hr hi
  have hr' : (s.withFetchWord nbits w).Running := (flag_of_sr_eq (loadBytes_sr s s.pc _) .b).trans hr
  unfold decodeTableWord at hi
  split at hi
  · next j rest hd =>
    obtain rfl := Option.some.inj hi
    rw [← withFetchWord_code s] at hd
    exact step_of_code hr' (code_of_decode hd)
  · cases hi

/-- Settles O35: a step's one effect on memory is the store of A. -/
theorem memoryChangesOnlyInStores : Obligations.MemoryChangesOnlyInStores := by
  intro s t h b hb
  rcases step_effect h with ⟨r, v, -, e, -⟩ | ⟨ea, hop, e, -⟩ | ⟨-, e, -⟩ | ⟨-, rfl⟩
  · exact absurd (e.memory b) hb
  · obtain rfl : b = ea := by_contra fun hne => hb (e.memory b hne)
    exact ⟨hop, e.stored⟩
  · exact absurd (e.memory b) hb
  · exact absurd rfl hb

/-- Settles O39: the fetch and every meaning see only the bytes they read. -/
theorem stepReadsOnlyItsAccesses : Obligations.StepReadsOnlyItsAccesses := by
  intro s t m h hagree
  obtain ⟨hacc, u, m', hu, hu'⟩ := step_of_agree (running_of_step h) hagree
  obtain rfl : t = u := Host.Outcome.next.inj (h.symm.trans hu)
  exact ⟨hacc, _, hu', rfl⟩

/-- Settles O40, by what a step does at the memory port. -/
theorem stepWritesOnlyItsAccesses : Obligations.StepWritesOnlyItsAccesses := by
  intro s t h
  refine ⟨fun b v hw => ?_, fun b hb => ?_, ?_⟩
  · obtain ⟨rfl, hmem⟩ := mem_of_write_mem_accesses h hw
    rw [read_of_mem_eq_write hmem, if_pos rfl]
  · rcases step_memory h with ⟨-, -, hmem⟩ | ⟨reads, ea, hacc, hmem⟩
    · exact read_of_mem_eq hmem b
    · have hne : b ≠ ea := by
        rintro rfl
        exact hb s.a (by simp [hacc])
      rw [read_of_mem_eq_write hmem, if_neg hne]
  · rcases step_memory h with ⟨reads, hacc, -⟩ | ⟨reads, ea, hacc, -⟩
    · exact ⟨reads, [], by simp [hacc], .inl rfl⟩
    · exact ⟨reads, _, hacc, .inr ⟨ea, rfl⟩⟩

/-- Settles O43: the step's write is the whole change of memory, and the next fetch reads that memory. -/
theorem storedByteIsFetchedNext : Obligations.StoredByteIsFetchedNext := by
  intro s t b v h hw
  obtain ⟨hv, hmem⟩ := mem_of_write_mem_accesses h hw
  refine ⟨hv, fun k hk => ?_⟩
  rw [State.code, hk, read_of_mem_eq_write hmem, if_pos rfl]

end Sys2Proof.Machine
end

section
/-! SUPPORT. The encoding (30_encoding.md): decoder and encoder as inverses, the unknown opcode bytes, the base costs, and
the charge of a whole step with its page-cross cycle; and the statements this settles. -/

namespace Sys2Proof.Machine

/-! ## Decoding (R45 to R50, R52) -/

/-- Every (family, mode) pair of an `Instr` exists, and it carries the operand bytes of its mode. -/
theorem wellFormed_eq_true (i : Instr) : i.wellFormed = true := by cases i <;> rfl

/-- The opcode lookup finds the form of `i`, which takes the operand bytes back to `i`. -/
theorem decode_encode_append (i : Instr) (rest : List Byte) : decode (encode i ++ rest) = .instr i rest := by
  obtain ⟨fm, hfm, hb⟩ := decodeOpcode_opcode i
  rw [encode_eq, List.cons_append]
  cases fm with
  | f1 j =>
    obtain ⟨hops, rfl⟩ := hb
    simp [decode, hfm, hops]
  | f2 g =>
    obtain ⟨b, hops, hg⟩ := hb
    simp [decode, hfm, hops, hg]
  | f3 g =>
    obtain ⟨lo, hi, hops, hg⟩ := hb
    simp [decode, hfm, hops, hg]

/-- The decoder rejects a first byte exactly where the opcode lookup has no answer for it. -/
theorem decode_eq_unknownOpcode_iff {op : Byte} {rest : List Byte} :
    decode (op :: rest) = .reject (.unknownOpcode op) ↔ decodeOpcode op = none := by
  constructor
  · intro h
    simp only [decode] at h
    split at h
    case h_1 hd => exact hd
    all_goals cases h
  · intro hd
    simp [decode, hd]

theorem unknownByte_eq_false_iff : ∀ op : Byte, unknownByte op = false ↔ op ∈ config.opcodes.map (·.opcode) := by decide

/-- The bytes that are not unknown are the 26 opcodes, each once. -/
theorem filter_known_perm :
    ((List.range 256).filter (fun n => !unknownByte (BitVec.ofNat 8 n))).Perm
      (config.opcodes.map (·.opcode.toNat)) := by
  refine (List.perm_ext_iff_of_nodup (List.nodup_range.filter _) (by decide)).2 fun n => ?_
  rw [List.mem_filter, List.mem_range, Bool.not_eq_true', unknownByte_eq_false_iff]
  simp only [List.mem_map]
  constructor
  · rintro ⟨hn, row, hrow, hop⟩
    exact ⟨row, hrow, by rw [hop, BitVec.toNat_ofNat, Nat.mod_eq_of_lt hn]⟩
  · rintro ⟨row, hrow, rfl⟩
    exact ⟨row.opcode.isLt, row, hrow, by simp⟩

theorem unknownByte_count : ((List.range 256).filter (fun n => unknownByte (BitVec.ofNat 8 n))).length = 230 := by
  have hall := List.length_eq_length_filter_add (l := List.range 256) (fun n => unknownByte (BitVec.ofNat 8 n))
  have hknown : (config.opcodes.map (·.opcode.toNat)).length = 26 := rfl
  rw [filter_known_perm.length_eq, hknown, List.length_range] at hall
  omega

/-! ## Base costs (R51) -/

theorem baseCycles_opcode (i : Instr) : config.baseCycles i.opcode = costOf i.mode i.family := by cases i <;> rfl

theorem baseCycles_of_unknownByte : ∀ op : Byte, unknownByte op = true → config.baseCycles op = 0 := by decide

theorem baseCycles_mem (op : Byte) : config.baseCycles op ∈ [0, 2, 3, 4, 5, 6, 7] := by revert op; decide

/-! ## Page crosses as numbers (R77, R78) -/

theorem page_toNat (a : Addr) : (page a).toNat = a.toNat / 256 := by
  have ha := a.isLt
  simp only [page, BitVec.extractLsb'_toNat, Nat.shiftRight_eq_div_pow]
  omega

theorem add16_toNat (a : Addr) (b : Byte) : (add16 a b).toNat = (a.toNat + b.toNat) % 65536 := by
  have hb := b.isLt
  simp only [add16, zext16, BitVec.toNat_add, BitVec.toNat_setWidth]
  omega

theorem pageCmp_iff (before after : Addr) : pageCmp before after = true ↔ before.toNat / 256 ≠ after.toNat / 256 := by
  rw [pageCmp, bne_iff_ne, ne_eq, ← BitVec.toNat_inj, page_toNat, page_toNat]

/-- Adding an index changes the page exactly where it carries out of the low byte. -/
theorem pageCmp_add16_iff (base : Addr) (index : Byte) :
    pageCmp base (add16 base index) = true ↔ 256 ≤ base.toNat % 256 + index.toNat := by
  have hbase := base.isLt
  have hindex := index.isLt
  rw [pageCmp_iff, add16_toNat]
  omega

theorem crossing_le_one (base : Addr) (index : Byte) : crossing base index ≤ 1 := by
  unfold crossing
  split <;> decide

/-- A pair that pays is charged for its indexed address exactly on a page cross. -/
theorem penaltyOf_indexed {f : Family} {m : Mode} (hp : config.penalty f m = true) (base : Addr) (index : Byte) :
    penaltyOf f m (indexed base index).crossed = crossing base index := by
  simp [penaltyOf, indexed, hp, crossing, pageCmp_add16_iff]

/-! ## The page-cross cycle of a meaning (R68) -/

/-- The page-cross cycle of an instruction run from `s`; `exec_frame` ties it to `exec`. -/
def crossCycle (i : Instr) (s : State) : Nat :=
  match i with
  | .ldaAbsx lo hi | .ldyAbsx lo hi => crossing (pair hi lo) s.x
  | .ldaAbsy lo hi | .ldxAbsy lo hi => crossing (pair hi lo) s.y
  | .ldaIndy b => crossing (s.readPointer b) s.y
  | _ => 0

theorem load_frame {f : Family} {m : Mode} {r : Reg} {v : Byte} {c : Bool} {k : Nat} {s t : State}
    (h : load f m r v c s = .next t) (hk : penaltyOf f m c = k) : ExecFrame k s t := by
  obtain ⟨u, hu, -, hframe, -⟩ := load_spec f m r v c s
  obtain rfl : u = t := Host.Outcome.next.inj (hu.symm.trans h)
  exact hk ▸ hframe

theorem storeA_frame {m : Mode} {ea : Resolved} {s t : State} (h : storeA m ea s = .next t) : ExecFrame 0 s t := by
  obtain ⟨u, hu, -, hframe, -⟩ := storeA_spec m ea s
  obtain rfl : u = t := Host.Outcome.next.inj (hu.symm.trans h)
  exact hframe

/-- A meaning moves CYC on by its page-cross cycle, and leaves PC and the output ports as they are. -/
theorem exec_frame {i : Instr} {s t : State} (h : exec i s = .next t) : ExecFrame (crossCycle i s) s t := by
  cases i
  case brk =>
    obtain rfl := Host.Outcome.next.inj h
    exact ⟨rfl, rfl, rfl⟩
  case staZp | staZpx | staAbs | staAbsx | staAbsy | staIndx | staIndy => exact storeA_frame h
  case ldaAbsx | ldaAbsy | ldaIndy | ldxAbsy | ldyAbsx => exact load_frame h (penaltyOf_indexed rfl _ _)
  case ldaImm | ldaZp | ldaZpx | ldaAbs | ldaIndx | ldxImm | ldxZp | ldxZpy | ldxAbs | ldyImm | ldyZp | ldyZpx | ldyAbs =>
    exact load_frame h rfl

/-! ## The charge of a step (R66, R69) -/

/-- The opcode bytes that pay for a page cross (R68); `pageCrossCycle_eq_zero` says that no other does. -/
def payingOpcodes : List Byte := [0xBD, 0xBC, 0xB9, 0xBE, 0xB1]

theorem pageCrossCycle_eq_zero {s : State} (h : s.code 0 ∉ payingOpcodes) : pageCrossCycle s = 0 := by
  have hnot {ops : List Byte} (hsub : ops ⊆ payingOpcodes) : s.code 0 ∉ ops := fun hm => h (hsub hm)
  rw [pageCrossCycle, if_neg (hnot (ops := [0xBD, 0xBC]) (by decide)), if_neg (hnot (ops := [0xB9, 0xBE]) (by decide)),
    if_neg fun h1 => h (by rw [h1]; decide)]

theorem pageCrossCycle_le_one (s : State) : pageCrossCycle s ≤ 1 := by
  unfold pageCrossCycle
  split_ifs <;> simp only [crossing_le_one, zero_le]

theorem unknownByte_of_mem_payingOpcodes : ∀ op ∈ payingOpcodes, unknownByte op = false := by decide

/-- Where the bytes at PC are those of `i`, each byte of its encoding stands at its place. -/
theorem code_eq_of_encode {s : State} {i : Instr} (hc : encode i = (List.range i.length).map s.code) {k : Nat} {b : Byte}
    (hb : (encode i)[k]? = some b) : s.code k = b := by
  rw [hc, List.getElem?_map, Option.map_eq_some_iff] at hb
  obtain ⟨j, hj, rfl⟩ := hb
  rw [(List.getElem?_eq_some_iff.1 hj).2.symm, List.getElem_range]

/-- The page-cross cycle read off the bytes at PC is that of the instruction they encode. -/
theorem pageCrossCycle_of_code {s : State} {i : Instr} (hc : encode i = (List.range i.length).map s.code) :
    pageCrossCycle s = crossCycle i s := by
  have hop := opcode_of_code hc
  cases i
  case ldaAbsx lo hi | ldyAbsx lo hi | ldaAbsy lo hi | ldxAbsy lo hi =>
    have hlo : s.code 1 = lo := code_eq_of_encode hc rfl
    have hhi : s.code 2 = hi := code_eq_of_encode hc rfl
    simp [pageCrossCycle, crossCycle, hop, Instr.opcode, encode, hlo, hhi]
  case ldaIndy b =>
    have hb : s.code 1 = b := code_eq_of_encode hc rfl
    simp [pageCrossCycle, crossCycle, hop, Instr.opcode, encode, hb]
  all_goals exact pageCrossCycle_eq_zero (by simp [hop, Instr.opcode, encode, payingOpcodes])

/-- The whole charge of a step: its base cost and its page-cross cycle. -/
theorem step_cyc {s t : State} (h : step s = .next t) :
    t.cyc = s.cyc + config.baseCycles (s.code 0) + pageCrossCycle s := by
  rcases step_inv h with ⟨i, hc, -, he⟩ | ⟨hu, rfl⟩
  · rw [pageCrossCycle_of_code hc]
    exact (exec_frame he).cyc
  · rw [pageCrossCycle_eq_zero fun hp => by simp [unknownByte_of_mem_payingOpcodes _ hp] at hu]
    rfl

/-- An opcode byte that does not pay is charged its base cost alone. -/
theorem step_cyc_of_not_paying {s t : State} (h : step s = .next t) (hp : s.code 0 ∉ payingOpcodes) :
    t.cyc = s.cyc + config.baseCycles (s.code 0) := by
  rw [step_cyc h, pageCrossCycle_eq_zero hp, Nat.add_zero]

/-- An opcode byte of base cost `n` is charged `n` or one more. -/
theorem step_cyc_of_baseCycles {s t : State} (h : step s = .next t) {n : Nat} (hn : config.baseCycles (s.code 0) = n) :
    t.cyc = s.cyc + n ∨ t.cyc = s.cyc + (n + 1) := by
  have hle := pageCrossCycle_le_one s
  rw [step_cyc h, hn]
  omega

theorem baseCycles_of_mem_payingOpcodes : ∀ op ∈ payingOpcodes, config.baseCycles op = 4 ∨ config.baseCycles op = 5 := by
  decide

/-! ## The statements -/

/-- Settles O9: the form that the opcode lookup finds builds the instruction from its operand bytes. -/
theorem decodeOfEncodeIsTheInstruction : Obligations.DecodeOfEncodeIsTheInstruction :=
  fun i rest => ⟨wellFormed_eq_true i, decode_encode_append i rest⟩

/-- Settles O10: whatever form the opcode lookup finds encodes with that opcode and the operand bytes taken. -/
theorem decodedBytesAreTheEncoding : Obligations.DecodedBytesAreTheEncoding :=
  fun _ _ _ => encode_append_of_decode

/-- Settles O12: the listed bytes are those without an answer of the opcode lookup, and their step leaves SR alone. -/
theorem unknownOpcodesAreTheListedBytes : Obligations.UnknownOpcodesAreTheListedBytes :=
  ⟨fun _ _ => decode_eq_unknownOpcode_iff.trans unknownByte_iff.symm, unknownByte_count,
    fun s hr hu => ⟨s.afterUnknown, step_of_unknown hr hu, hr⟩⟩

/-- Settles O20: the charge is base cost and page-cross cycle, and only an opcode of base cost 4 or 5 pays for a cross. -/
theorem stepChargesBaseCostAndPageCross : Obligations.StepChargesBaseCostAndPageCross := by
  intro s t h
  refine ⟨step_cyc h, ?_, fun hu => ?_, fun h0 => ?_, fun h4 => ?_, fun h5 => ?_⟩
  · by_cases hp : s.code 0 ∈ payingOpcodes
    · have hcyc := step_cyc_of_baseCycles h rfl
      have hbase := baseCycles_of_mem_payingOpcodes _ hp
      simp only [List.mem_cons, List.not_mem_nil, or_false]
      omega
    · rw [step_cyc_of_not_paying h hp, Nat.add_sub_cancel_left]
      exact baseCycles_mem _
  · rw [step_cyc_of_not_paying h fun hp => by simp [unknownByte_of_mem_payingOpcodes _ hp] at hu,
      baseCycles_of_unknownByte _ hu, Nat.add_zero]
  · rw [step_cyc_of_not_paying h (by rw [h0]; decide), h0]
    rfl
  · have hbase : ∀ op ∈ ([0xBD, 0xB9, 0xBE, 0xBC] : List Byte), config.baseCycles op = 4 := by decide
    exact step_cyc_of_baseCycles h (hbase _ h4)
  · exact step_cyc_of_baseCycles h (h5 ▸ rfl)

/-- Settles O11: seven of the words are encodings, each decoded to its instruction; the last is a byte R52 lists. -/
theorem wordsOfTheSpecDecode : Obligations.WordsOfTheSpecDecode :=
  ⟨decode_encode_append (.ldaImm 0xFF) [], decode_encode_append (.ldaZpx 0xFF) [],
    decode_encode_append (.ldaAbsx 0xFF 0x12) [], decode_encode_append (.ldxImm 0x05) [],
    decode_encode_append (.ldyZpx 0x0B) [], decode_encode_append (.staAbs 0x34 0x12) [],
    decode_encode_append .brk [0xA9], decode_eq_unknownOpcode_iff.2 (unknownByte_iff.1 rfl)⟩

/-- Settles O13: the first byte of an encoding is the opcode, whose entry is the cost of its mode and family. -/
theorem baseCyclesAreTheListedCosts : Obligations.BaseCyclesAreTheListedCosts := by
  refine ⟨fun i op rest h => ?_, baseCycles_of_unknownByte⟩
  obtain rfl : i.opcode = op := by rw [Instr.opcode, h, List.headD_cons]
  exact baseCycles_opcode i

end Sys2Proof.Machine
end

section
/-! SUPPORT. Fetch and decode (40_fetch_decode.md): requests, when a step halts and what it reports, and the step as R61's
table-driven pipeline; and the statements this settles. -/

namespace Sys2Proof.Machine

/-! ## Requests (R60, R144, R163) -/

/-- A step request to a Halted engine is ignored. -/
theorem serve_step_of_halted {s : State} (h : s.halted = true) : serve false true s = .next s := by simp [serve, h]

/-- A step request to a Running engine is a step. -/
theorem serve_step_of_running {s : State} (hr : s.Running) : serve false true s = step s := by
  have hh : s.halted = false := hr
  simp [serve, hh]

theorem accesses_of_halted {s : State} (h : s.halted = true) : accesses s = [] := by simp [accesses, h]

theorem applyReset_running (s : State) : s.applyReset.Running := (by decide : getFlag 0x24 .b = false)

/-! ## How a step ends (R70, R72, R131) -/

/-- No load or store opcode is BRK or unknown. -/
theorem loadStoreOpcode_not_other :
    ∀ op ∈ ldaBytes ++ ldxBytes ++ ldyBytes ++ staBytes, op ≠ 0x00 ∧ unknownByte op = false := by decide

theorem ne_zero_of_unknownByte : ∀ op : Byte, unknownByte op = true → op ≠ 0x00 := by decide

/-- Of the effects a step can have, BRK's alone touches B. -/
theorem step_halted_iff {s t : State} (h : step s = .next t) : t.halted = true ↔ s.code 0 = 0x00 := by
  have hkept (hop : s.code 0 ≠ 0x00) (hb : t.flag .b = s.flag .b) : t.halted = true ↔ s.code 0 = 0x00 := by
    have hrun : t.halted = false := hb.trans (running_of_step h)
    exact iff_of_false (by simp [hrun]) hop
  rcases step_effect h with ⟨r, v, hop, e, -⟩ | ⟨ea, hop, e, -⟩ | ⟨hop, e, -⟩ | ⟨hu, rfl⟩
  · exact hkept (loadOpcode_not_other r _ hop).2.2 (e.flags .b (by decide))
  · exact hkept (loadStoreOpcode_not_other _ (List.mem_append_right _ hop)).1 (flag_of_sr_eq e.status .b)
  · exact iff_of_true e.halted hop
  · exact hkept (ne_zero_of_unknownByte _ hu) rfl

/-- The output ports after a step: its opcode and address, and the report of an unknown opcode. -/
theorem step_out {s t : State} (h : step s = .next t) :
    t.out.trace = some ⟨s.code 0, s.pc⟩ ∧
      t.out.diag = if unknownByte (s.code 0) then some ⟨s.code 0, s.pc⟩ else none := by
  rcases step_inv h with ⟨i, -, hop, he⟩ | ⟨hu, rfl⟩
  · rw [(exec_frame he).out, afterFetch_out, if_neg (by simp [hop, unknownByte_opcode])]
    exact ⟨rfl, rfl⟩
  · exact ⟨rfl, (if_pos hu).symm⟩

theorem step_diag_of_known {s t : State} (h : step s = .next t) (hk : unknownByte (s.code 0) = false) :
    t.out.diag = none := by simp [step_out h, hk]

/-! ## The pipeline of R61 -/

/-- The record of a mode when the next two bytes are `b` and `hi`; the mode uses as many of them as it takes (R80 to R90).
`resolve_eq` ties it to `Resolve`. -/
def operandRecord (m : Mode) (b hi : Byte) (s : State) : ResolverRecord :=
  match m with
  | .impl => ⟨.none, false⟩
  | .imm => ⟨.value b, false⟩
  | .zp => (resolveZp b).record
  | .zpx => (resolveZpx b s).record
  | .zpy => (resolveZpy b s).record
  | .abs => (resolveAbs b hi).record
  | .absx => (resolveAbsx b hi s).record
  | .absy => (resolveAbsy b hi s).record
  | .indx => (resolveIndx b s).record
  | .indy => (resolveIndy b s).record

/-- `Resolve` answers the record of the mode and moves PC past the operand bytes. -/
theorem resolve_eq (s : State) (m : Mode) :
    s.resolve m =
      (operandRecord m (s.code 0) (s.code 1) s, { s with pc := s.pc + BitVec.ofNat 16 m.operandCount }) := by
  have h2 : add16 (add16 s.pc 1) 1 = s.pc + 2#16 := pc_add_two s.pc
  rw [code_zero]
  cases m
  case impl => simp [State.resolve, operandRecord, Mode.operandCount]
  case imm | zp | zpx | zpy | indx | indy => rfl
  case abs | absx | absy => exact congrArg (fun p => (_, { s with pc := p })) h2

/-- After the opcode fetch, PC stands at the operand bytes. -/
theorem beginStep_code (s : State) (k : Nat) : s.beginStep.2.code k = s.code (k + 1) :=
  congrArg s.read (add16_one_add s.pc k)

/-- After the opcode fetch, `Resolve` in the mode of `i` ends in the state where the meaning of `i` starts. -/
theorem resolve_beginStep (s : State) (i : Instr) :
    s.beginStep.2.resolve i.mode =
      (operandRecord i.mode (s.code 1) (s.code 2) (s.afterFetch i), s.afterFetch i) := by
  have hpc : s.beginStep.2.pc + BitVec.ofNat 16 i.mode.operandCount = s.pc + BitVec.ofNat 16 i.length := by
    rw [Instr.length, Nat.add_comm 1]
    exact add16_one_add s.pc _
  have hblind (b hi : Byte) : operandRecord i.mode b hi s.beginStep.2 = operandRecord i.mode b hi (s.afterFetch i) := by
    cases i.mode <;> rfl
  rw [resolve_eq, beginStep_code, beginStep_code, hblind, hpc, State.afterFetch, code_zero]
  rfl

/-- The operand bytes of the instruction at PC are the first of the two bytes after the opcode. -/
theorem operands_prefix_of_code {s : State} {i : Instr} (hc : encode i = (List.range i.length).map s.code) :
    i.operands <+: [s.code 1, s.code 2] := by
  have hlen : i.length ≤ 3 := by
    rw [length_eq_of_opcode]
    split_ifs <;> decide
  have hp : encode i <+: (List.range 3).map s.code := by
    rw [hc, ← Nat.min_eq_left hlen, ← List.take_range]
    exact (List.take_prefix _ _).map _
  rw [encode_eq] at hp
  exact (List.cons_prefix_cons.1 hp).2

/-- The meaning of an instruction is `Execute` on the record of its operand bytes, then the charge of R68. -/
theorem exec_eq_execute {i : Instr} {b hi : Byte} (h : i.operands <+: [b, hi]) (s : State) :
    ∃ t, s.execute i.family (operandRecord i.mode b hi s).kind = some t ∧
      exec i s = .next (t.chargePenalty i.family i.mode (operandRecord i.mode b hi s).crossed) := by
  cases i
  case brk => exact ⟨_, rfl, rfl⟩
  case ldaAbs | ldaAbsx | ldaAbsy | ldxAbs | ldxAbsy | ldyAbs | ldyAbsx | staAbs | staAbsx | staAbsy =>
    obtain ⟨rfl, rfl⟩ : _ = b ∧ _ = hi := by simpa [Instr.operands] using h
    exact ⟨_, rfl, rfl⟩
  all_goals
    obtain rfl : _ = b := by simpa [Instr.operands] using h
    exact ⟨_, rfl, rfl⟩

/-- Every row of the table has a format, so the lookup of the pair answers where that of the format does. -/
theorem decodePair_isNone : ∀ op : Byte, (config.decodePair op).isNone = (decodeOpcode op).isNone := by decide

theorem pipelineStep_of_unknown {s : State} (hd : decodeOpcode (s.code 0) = none) :
    pipelineStep config s = some s.afterUnknown := by
  have hp : config.decodePair (s.code 0) = none := by
    rw [← Option.isNone_iff_eq_none, decodePair_isNone, hd, Option.isNone_none]
  rw [code_zero] at hp
  simp only [pipelineStep, fetchByte_fst, hp, State.afterUnknown, code_zero]
  rfl

/-- Where the bytes at PC are those of `i`, the pipeline decodes its pair, resolves its operand, and executes. -/
theorem pipelineStep_of_code {s : State} {i : Instr} (hc : encode i = (List.range i.length).map s.code) :
    pipelineStep config s =
      ((s.afterFetch i).execute i.family (operandRecord i.mode (s.code 1) (s.code 2) (s.afterFetch i)).kind).map
        (·.chargePenalty i.family i.mode (operandRecord i.mode (s.code 1) (s.code 2) (s.afterFetch i)).crossed) := by
  have hp : config.decodePair s.fetchByte.1 = some (i.family, i.mode) := by
    rw [fetchByte_fst, ← code_zero, opcode_of_code hc, decodePair_opcode]
  have hres := resolve_beginStep s i
  simp only [State.beginStep] at hres
  simp only [pipelineStep, hp, hres]
  rfl

/-! ## The statements -/

/-- Settles O16: each meaning is `Execute` on its operand's record, and the unknown-opcode step is the same in both. -/
theorem stepIsThePipelineOfTheTables : Obligations.StepIsThePipelineOfTheTables := by
  intro s hr
  rcases step_running hr with ⟨i, hc, he⟩ | ⟨hd, he⟩
  · obtain ⟨t, ht, hx⟩ := exec_eq_execute (operands_prefix_of_code hc) (s.afterFetch i)
    exact ⟨_, by rw [pipelineStep_of_code hc, ht, Option.map_some], he.trans hx⟩
  · exact ⟨s.afterUnknown, pipelineStep_of_unknown hd, he⟩

/-- Settles O17: a Running engine answers a next state, and a Halted one none. -/
theorem stepIsEnabledExactlyWhenRunning : Obligations.StepIsEnabledExactlyWhenRunning :=
  fun _ => ⟨⟨fun ⟨_, h⟩ => running_of_step h, step_next⟩,
    fun hh => ⟨step_halted hh, serve_step_of_halted hh, accesses_of_halted hh⟩, serve_step_of_running⟩

/-- Settles O18: BRK's effect alone sets B. -/
theorem stepHaltsExactlyOnBreak : Obligations.StepHaltsExactlyOnBreak :=
  fun _ _ => step_halted_iff

/-- Settles O21: the fetch sets the ports, no meaning moves them, and the unknown-opcode step adds the report. -/
theorem diagnosticExactlyForUnknownOpcode : Obligations.DiagnosticExactlyForUnknownOpcode :=
  fun _ _ => step_out

/-- Settles O44: the reset leaves the engine Running, so a step with it is taken; and BRK, which alone halts, is no unknown
opcode, which alone reports. -/
theorem requestsAreServedResetFirst : Obligations.RequestsAreServedResetFirst := by
  refine ⟨fun s => ⟨?_, rfl, rfl, serve_step_of_halted, serve_step_of_running⟩, fun s t h => ⟨?_, fun hop => ?_⟩⟩
  · exact serve_step_of_running (applyReset_running s)
  · rintro ⟨hhalt, hdiag⟩
    have hbrk : s.code 0 = 0x00 := (step_halted_iff h).1 hhalt
    rw [step_diag_of_known h (hbrk ▸ rfl)] at hdiag
    cases hdiag
  · obtain ⟨hbrk, hknown⟩ := loadStoreOpcode_not_other _ hop
    exact ⟨Bool.eq_false_iff.2 fun hb => hbrk ((step_halted_iff h).1 hb), step_diag_of_known h hknown⟩

/-- Settles O14: the three bytes at PC begin with the encoding of what they decode to. -/
theorem stepRunsTheDecodedInstruction : Obligations.StepRunsTheDecodedInstruction :=
  fun _ _ _ hr hd => step_of_code hr (code_of_decode hd)

end Sys2Proof.Machine
end

section
/-! SUPPORT. Addressing and the ALU (41_addressing_alu.md): the additions, the byte pair, NZ and the page cross as numbers;
what the resolver answers; the accesses of a step by its opcode byte; and the statements this settles. -/

namespace Sys2Proof.Machine

/-! ## The ALU as numbers (R33, R76, R79) -/

theorem add8_toNat (a b : Byte) : (add8 a b).toNat = (a.toNat + b.toNat) % 256 := BitVec.toNat_add a b

theorem pair_toNat (hi lo : Byte) : (pair hi lo).toNat = hi.toNat * 256 + lo.toNat :=
  calc (hi ++ lo).toNat = hi.toNat <<< 8 + lo.toNat := by
        rw [BitVec.toNat_append, Nat.shiftLeft_add_eq_or_of_lt lo.isLt]
    _ = hi.toNat * 256 + lo.toNat := by rw [Nat.shiftLeft_eq]

theorem zext16_toNat (b : Byte) : (zext16 b).toNat = b.toNat := BitVec.toNat_setWidth_of_le (by decide)

theorem zext16_eq_ofNat (b : Byte) : zext16 b = BitVec.ofNat 16 b.toNat := (BitVec.ofNat_toNat 16 b).symm

theorem nz_z_iff (v : Byte) : (nz v).z = true ↔ v.toNat = 0 := by
  rw [nz, beq_iff_eq, ← BitVec.toNat_inj]; rfl

theorem nz_n_iff (v : Byte) : (nz v).n = true ↔ 128 ≤ v.toNat := by
  rw [nz, ← BitVec.msb_eq_getLsbD_last (x := v), BitVec.msb_eq_decide, decide_eq_true_iff]

/-! ## The resolver (R81 to R88) -/

theorem indexed_address_toNat (base : Addr) (index : Byte) :
    (indexed base index).address.toNat = (base.toNat + index.toNat) % 65536 := add16_toNat base index

theorem indexed_crossed (base : Addr) (index : Byte) :
    (indexed base index).crossed = decide (256 ≤ base.toNat % 256 + index.toNat) :=
  Bool.eq_iff_iff.2 ((pageCmp_add16_iff base index).trans decide_eq_true_iff.symm)

/-- A pointer as a number: both of its bytes come from page 0 (R33, R87, R88). -/
theorem readPointer_toNat (s : State) (p : Byte) :
    (s.readPointer p).toNat =
      (s.read (BitVec.ofNat 16 ((p.toNat + 1) % 256))).toNat * 256 + (s.read (BitVec.ofNat 16 p.toNat)).toNat := by
  rw [State.readPointer, pair_toNat, zext16_eq_ofNat, zext16_eq_ofNat, add8_toNat]; rfl

/-! ## The accesses of a step, by its opcode byte (R91) -/

theorem instr_length_le_three (i : Instr) : i.length ≤ 3 := by
  rw [length_eq_of_opcode]
  split_ifs <;> decide

/-- Where the opcode byte at PC is that of `i` and its operand bytes follow, the bytes at PC are those of `i`. -/
theorem code_of_opcode {s : State} {i : Instr} (hop : s.code 0 = i.opcode) (ho : i.operands <+: [s.code 1, s.code 2]) :
    encode i = (List.range i.length).map s.code := by
  have hp : encode i <+: (List.range 3).map s.code := by
    rw [encode_eq, ← hop]
    exact List.cons_prefix_cons.2 ⟨rfl, ho⟩
  rw [List.prefix_iff_eq_take.1 hp, encode_length, ← List.map_take, List.take_range,
    Nat.min_eq_left (instr_length_le_three i)]

/-- The row of R91 of one instruction: its bytes are read in order, its meaning makes its own accesses, and PC ends past
its bytes. -/
theorem accessRow_opcode {s : State} (i : Instr) (ho : i.operands <+: [s.code 1, s.code 2]) :
    AccessRow s [i.opcode] (([s.pc, s.pc + 1, s.pc + 2].take i.length).map .read ++ operandAccesses i s) i.length := by
  intro hr hop
  have hc := code_of_opcode (List.mem_singleton.1 hop) ho
  obtain ⟨t, ht⟩ := step_next hr
  refine ⟨?_, t, ht, ?_⟩
  · have hreads : (List.range 3).map (fun k => s.pc + BitVec.ofNat 16 k) = [s.pc, s.pc + 1, s.pc + 2] :=
      congrArg (· :: _) (BitVec.add_zero s.pc)
    rw [accesses_of_code hr hc, ← hreads, ← List.map_take, List.take_range,
      Nat.min_eq_left (instr_length_le_three i)]
  · rw [step_of_code hr hc] at ht
    rw [exec_pc ht, afterFetch_pc]

/-- A row that holds for one opcode byte and for the rest of a list holds for the list. -/
theorem AccessRow.cons {s : State} {op : Byte} {ops : List Byte} {l : List Access} {len : Nat}
    (h : AccessRow s [op] l len) (hs : AccessRow s ops l len) : AccessRow s (op :: ops) l len := fun hr hop =>
  (List.mem_cons.1 hop).elim (fun he => h hr (List.mem_singleton.2 he)) (hs hr)

/-! ## The statements -/

/-- Settles O4: each operation as a number; a byte of 128 or more is not 0. -/
theorem aluComputesModuloAndTestsZeroAndBit7 : Obligations.AluComputesModuloAndTestsZeroAndBit7 := by
  intro a b p
  refine ⟨add8_toNat a b, add16_toNat p b, pair_toNat a b, nz_z_iff a, nz_n_iff a, ?_⟩
  rw [nz_z_iff, nz_n_iff]
  omega

/-- Settles O5: a high byte is the quotient by 256, which the index changes exactly by a carry. -/
theorem pageCrossIsCarryOutOfLowByte : Obligations.PageCrossIsCarryOutOfLowByte := by
  intro before after idx
  refine ⟨pageCmp_iff before after, pageCmp_add16_iff before idx, ?_⟩
  have hlow : before.toNat % 256 < 256 := Nat.mod_lt _ (by decide)
  rw [Bool.eq_false_iff, ne_eq, pageCmp_add16_iff]
  exact hlow.not_ge

/-- Settles O6: the zero-page sums are ADD8, the others `indexed` at the byte pair or at the pointer. -/
theorem resolverAddressesEveryMode : Obligations.ResolverAddressesEveryMode := by
  intro b lo hi s pointer base
  have hbase : (pair hi lo).toNat = base := pair_toNat hi lo
  have hzp (x : Byte) : (zext16 (add8 b x)).toNat = (b.toNat + x.toNat) % 256 := by rw [zext16_toNat, add8_toNat]
  have hindexed (x : Byte) : (indexed (pair hi lo) x).address.toNat = (base + x.toNat) % 65536 ∧
      (indexed (pair hi lo) x).crossed = decide (256 ≤ base % 256 + x.toNat) := by
    rw [indexed_address_toNat, indexed_crossed, hbase]
    exact ⟨rfl, rfl⟩
  have hindx : (s.readPointer (add8 b s.x)).toNat = pointer (b.toNat + s.x.toNat) := by
    rw [readPointer_toNat, add8_toNat, Nat.mod_add_mod]
  have hindy : (s.readPointer b).toNat = pointer b.toNat := by
    simp only [pointer, readPointer_toNat, Nat.mod_eq_of_lt b.isLt]
  refine ⟨⟨zext16_toNat b, rfl⟩, ⟨hzp s.x, rfl⟩, ⟨hzp s.y, rfl⟩, ⟨hbase, rfl⟩, hindexed s.x, hindexed s.y,
    ⟨hindx, rfl⟩, ?_⟩
  rw [resolveIndy, indexed_address_toNat, indexed_crossed, hindy]
  exact ⟨rfl, rfl⟩

/-- Settles O38: each row is that of its instructions, with the operand bytes taken from the bytes after the opcode. -/
theorem accessesOfEveryOpcode : Obligations.AccessesOfEveryOpcode := by
  intro s c1 abs f1 f2 f3 ptr
  let c2 := s.code 2
  have h2 : [c1] <+: [c1, c2] := ⟨[c2], rfl⟩
  have h3 : [c1, c2] <+: [c1, c2] := List.prefix_rfl
  have hunknown (hr : s.Running) (hu : unknownByte (s.code 0) = true) :
      accesses s = f1 ∧ ∃ t, step s = .next t ∧ t.pc = s.pc + 1 :=
    ⟨accesses_of_unknown hr hu, _, step_of_unknown hr hu, rfl⟩
  exact ⟨hunknown,
    accessRow_opcode .brk List.nil_prefix,
    (accessRow_opcode (.ldaImm c1) h2).cons <|
      (accessRow_opcode (.ldxImm c1) h2).cons (accessRow_opcode (.ldyImm c1) h2),
    (accessRow_opcode (.ldaZp c1) h2).cons <|
      (accessRow_opcode (.ldxZp c1) h2).cons (accessRow_opcode (.ldyZp c1) h2),
    accessRow_opcode (.staZp c1) h2,
    (accessRow_opcode (.ldaZpx c1) h2).cons (accessRow_opcode (.ldyZpx c1) h2),
    accessRow_opcode (.staZpx c1) h2,
    accessRow_opcode (.ldxZpy c1) h2,
    (accessRow_opcode (.ldaAbs c1 c2) h3).cons <|
      (accessRow_opcode (.ldxAbs c1 c2) h3).cons (accessRow_opcode (.ldyAbs c1 c2) h3),
    accessRow_opcode (.staAbs c1 c2) h3,
    (accessRow_opcode (.ldaAbsx c1 c2) h3).cons (accessRow_opcode (.ldyAbsx c1 c2) h3),
    accessRow_opcode (.staAbsx c1 c2) h3,
    (accessRow_opcode (.ldaAbsy c1 c2) h3).cons (accessRow_opcode (.ldxAbsy c1 c2) h3),
    accessRow_opcode (.staAbsy c1 c2) h3,
    accessRow_opcode (.ldaIndx c1) h2,
    accessRow_opcode (.staIndx c1) h2,
    accessRow_opcode (.ldaIndy c1) h2,
    accessRow_opcode (.staIndy c1) h2⟩

end Sys2Proof.Machine
end

section
/-! SUPPORT. The loads (42_loads.md): the operand value of a load, what its meaning and its whole step do, and a load right
after a store; and the statements this settles. -/

namespace Sys2Proof.Machine

/-! ## The meaning of a load (R92, R100) -/

/-- The operand value of a load (R80, R92): the byte at the address of its last access, or the operand byte in the mode IMM,
which makes no access. `exec_eq_load` ties it to `exec`. -/
def loadedByte (i : Instr) (s : State) : Byte :=
  match (operandAccesses i s).getLast? with
  | some (.read ea) => s.read ea
  | _ => i.operands.headD 0

theorem loadedByte_of_read {i : Instr} {s : State} {ea : Addr} (h : (operandAccesses i s).getLast? = some (.read ea)) :
    loadedByte i s = s.read ea := by
  rw [loadedByte, h]

/-- An instruction of the family that loads `r` is the shared load of its operand value into `r`. -/
theorem exec_eq_load {i : Instr} {r : Reg} (hf : i.family = r.loadFamily) (s : State) :
    ∃ c, exec i s = load i.family i.mode r (loadedByte i s) c s := by
  cases r with
  | a =>
    cases i
    case ldaImm | ldaZp | ldaZpx | ldaAbs | ldaAbsx | ldaAbsy | ldaIndx | ldaIndy => exact ⟨_, rfl⟩
    all_goals cases hf
  | x =>
    cases i
    case ldxImm | ldxZp | ldxZpy | ldxAbs | ldxAbsy => exact ⟨_, rfl⟩
    all_goals cases hf
  | y =>
    cases i
    case ldyImm | ldyZp | ldyZpx | ldyAbs | ldyAbsx => exact ⟨_, rfl⟩
    all_goals cases hf

/-- The meaning of every load, from every state: the effect of R100 and the page-cross cycle of R68. -/
theorem exec_loads (i : Instr) {r : Reg} (hf : i.family = r.loadFamily) (s : State) :
    ExecLoads i r (loadedByte i s) (crossCycle i s) s := by
  obtain ⟨c, hc⟩ := exec_eq_load hf s
  obtain ⟨t, ht, heffect, -⟩ := load_spec i.family i.mode r (loadedByte i s) c s
  have he : exec i s = .next t := hc.trans ht
  exact ⟨t, he, heffect, exec_frame he⟩

theorem reg_of_exec_load {i : Instr} {r : Reg} {s t : State} (h : exec i s = .next t) (hf : i.family = r.loadFamily) :
    t.reg r = loadedByte i s := by
  obtain ⟨u, hu, heffect, -⟩ := exec_loads i hf s
  obtain rfl : u = t := Host.Outcome.next.inj (hu.symm.trans h)
  exact heffect.loaded

/-! ## The whole step of a load (R61 to R66, R72) -/

/-- The operand value and the page-cross cycle do not see what the fetch changed: PC, CYC and the output ports. -/
theorem loadedByte_afterFetch (i : Instr) (s : State) : loadedByte i (s.afterFetch i) = loadedByte i s := by
  rw [loadedByte, operandAccesses_afterFetch]; rfl

theorem crossCycle_afterFetch (i : Instr) (s : State) : crossCycle i (s.afterFetch i) = crossCycle i s := by
  cases i <;> rfl

/-- The frame of a meaning after the fetch is that of the whole step, with the base cost added to the charge. -/
theorem ExecFrame.stepFrame {i : Instr} {extra : Nat} {s t : State} (h : ExecFrame extra (s.afterFetch i) t) :
    StepFrame i.length (config.baseCycles (s.code 0) + extra) s t where
  pc := h.pc
  cyc := h.cyc.trans (Nat.add_assoc _ _ _)
  diag := by rw [h.out, afterFetch_out]
  trace := by rw [h.out, afterFetch_out]

/-- The step of every load, by its opcode byte, with the operand bytes taken from the bytes after it. -/
theorem step_loads (i : Instr) {r : Reg} {s : State} (hf : i.family = r.loadFamily)
    (ho : i.operands <+: [s.code 1, s.code 2]) :
    StepLoads s i.opcode r (loadedByte i s) i.length (costOf i.mode i.family + crossCycle i s) := by
  intro hr hop
  obtain ⟨t, ht, heffect, hframe⟩ := exec_loads i hf (s.afterFetch i)
  rw [loadedByte_afterFetch] at heffect
  rw [crossCycle_afterFetch] at hframe
  rw [← baseCycles_opcode, ← hop]
  exact ⟨t, (step_of_code hr (code_of_opcode hop ho)).trans ht, heffect.of_afterFetch, hframe.stepFrame⟩

/-! ## A load after a store (R120) -/

/-- A meaning whose last access is a write stores A there. -/
theorem read_of_exec_store {i : Instr} {s t : State} {ea : Addr} {v : Byte} (h : exec i s = .next t)
    (hw : (operandAccesses i s).getLast? = some (.write ea v)) : v = s.a ∧ t.read ea = s.a := by
  rcases operandAccesses_cases i s with ⟨reads, hacc, -⟩ | ⟨reads, r, hacc, hx⟩
  · simp [hacc] at hw
  · obtain ⟨rfl, rfl⟩ : r.address = ea ∧ s.a = v := by simpa [hacc] using hw
    obtain ⟨u, hu, heffect, -⟩ := storeA_spec i.mode r s
    obtain rfl : u = t := Host.Outcome.next.inj (hu.symm.trans (hx.symm.trans h))
    exact ⟨rfl, heffect.stored⟩

/-! ## The statements -/

/-- Settles O22: each form is the load of its operand value into A, with its page-cross cycle. -/
theorem execLdaLoadsA : Obligations.ExecLdaLoadsA := fun b lo hi s =>
  ⟨exec_loads (.ldaImm b) rfl s, exec_loads (.ldaZp b) rfl s, exec_loads (.ldaZpx b) rfl s,
    exec_loads (.ldaAbs lo hi) rfl s, exec_loads (.ldaAbsx lo hi) rfl s, exec_loads (.ldaAbsy lo hi) rfl s,
    exec_loads (.ldaIndx b) rfl s, exec_loads (.ldaIndy b) rfl s⟩

/-- Settles O23: each form is the load of its operand value into X, with its page-cross cycle. -/
theorem execLdxLoadsX : Obligations.ExecLdxLoadsX := fun b lo hi s =>
  ⟨exec_loads (.ldxImm b) rfl s, exec_loads (.ldxZp b) rfl s, exec_loads (.ldxZpy b) rfl s,
    exec_loads (.ldxAbs lo hi) rfl s, exec_loads (.ldxAbsy lo hi) rfl s⟩

/-- Settles O24: each form is the load of its operand value into Y, with its page-cross cycle. -/
theorem execLdyLoadsY : Obligations.ExecLdyLoadsY := fun b lo hi s =>
  ⟨exec_loads (.ldyImm b) rfl s, exec_loads (.ldyZp b) rfl s, exec_loads (.ldyZpx b) rfl s,
    exec_loads (.ldyAbs lo hi) rfl s, exec_loads (.ldyAbsx lo hi) rfl s⟩

/-- Settles O27: each opcode's step is that of its LDA form, with the operand bytes after the opcode. -/
theorem ldaOpcodesStep : Obligations.LdaOpcodesStep := by
  intro s c1 abs
  let c2 := s.code 2
  exact ⟨step_loads (.ldaImm c1) rfl ⟨_, rfl⟩, step_loads (.ldaZp c1) rfl ⟨_, rfl⟩, step_loads (.ldaZpx c1) rfl ⟨_, rfl⟩,
    step_loads (.ldaAbs c1 c2) rfl ⟨_, rfl⟩, step_loads (.ldaAbsx c1 c2) rfl ⟨_, rfl⟩,
    step_loads (.ldaAbsy c1 c2) rfl ⟨_, rfl⟩, step_loads (.ldaIndx c1) rfl ⟨_, rfl⟩, step_loads (.ldaIndy c1) rfl ⟨_, rfl⟩⟩

/-- Settles O28: each opcode's step is that of its LDX form, with the operand bytes after the opcode. -/
theorem ldxOpcodesStep : Obligations.LdxOpcodesStep := by
  intro s c1 abs
  let c2 := s.code 2
  exact ⟨step_loads (.ldxImm c1) rfl ⟨_, rfl⟩, step_loads (.ldxZp c1) rfl ⟨_, rfl⟩, step_loads (.ldxZpy c1) rfl ⟨_, rfl⟩,
    step_loads (.ldxAbs c1 c2) rfl ⟨_, rfl⟩, step_loads (.ldxAbsy c1 c2) rfl ⟨_, rfl⟩⟩

/-- Settles O29: each opcode's step is that of its LDY form, with the operand bytes after the opcode. -/
theorem ldyOpcodesStep : Obligations.LdyOpcodesStep := by
  intro s c1 abs
  let c2 := s.code 2
  exact ⟨step_loads (.ldyImm c1) rfl ⟨_, rfl⟩, step_loads (.ldyZp c1) rfl ⟨_, rfl⟩, step_loads (.ldyZpx c1) rfl ⟨_, rfl⟩,
    step_loads (.ldyAbs c1 c2) rfl ⟨_, rfl⟩, step_loads (.ldyAbsx c1 c2) rfl ⟨_, rfl⟩⟩

/-- Settles O42: the store leaves A at the address, and the load's operand value is the byte read there. -/
theorem storedByteIsLoadedBack : Obligations.StoredByteIsLoadedBack := by
  intro i j s t u ea v hi hw hj hread
  obtain ⟨hv, hstored⟩ := read_of_exec_store hi hw
  have hloaded : loadedByte j t = s.a := (loadedByte_of_read hread).trans hstored
  have hreg (r : Reg) (hf : j.family = r.loadFamily) : u.reg r = s.a := (reg_of_exec_load hj hf).trans hloaded
  exact ⟨hv, hreg .a, hreg .x, hreg .y⟩

end Sys2Proof.Machine
end

section
/-! SUPPORT. The stores (43_stores.md): what the meaning and the whole step of a store do, from the write that ends its
accesses; and the statements this settles. -/

namespace Sys2Proof.Machine

/-- The meaning of every store, from every state (R120): A goes to the address of its last access, and no page cross is
charged (R68). -/
theorem exec_stores {i : Instr} {s : State} {ea : Addr} {v : Byte}
    (hw : (operandAccesses i s).getLast? = some (.write ea v)) : ExecStores i ea s := by
  rcases operandAccesses_cases i s with ⟨reads, hacc, -⟩ | ⟨reads, r, hacc, hx⟩
  · simp [hacc] at hw
  · obtain ⟨rfl, -⟩ : r.address = ea ∧ s.a = v := by simpa [hacc] using hw
    obtain ⟨t, ht, heffect, hframe, -⟩ := storeA_spec i.mode r s
    exact ⟨t, hx.trans ht, heffect, hframe⟩

/-- The step of every store, by its opcode byte, with the operand bytes taken from the bytes after it: its charge is the base
cost alone (R66, R68). -/
theorem step_stores (i : Instr) {s : State} {ea : Addr} {v : Byte}
    (hw : (operandAccesses i s).getLast? = some (.write ea v)) (ho : i.operands <+: [s.code 1, s.code 2]) :
    StepStores s i.opcode ea i.length (costOf i.mode i.family) := by
  intro hr hop
  rw [← operandAccesses_afterFetch] at hw
  obtain ⟨t, ht, heffect, hframe⟩ := exec_stores hw
  rw [← baseCycles_opcode, ← hop]
  exact ⟨t, (step_of_code hr (code_of_opcode hop ho)).trans ht, heffect.of_afterFetch, hframe.stepFrame⟩

/-! ## The statements -/

/-- Settles O25: each form ends its accesses with the write of A at its mode's address. -/
theorem execStaStoresA : Obligations.ExecStaStoresA := fun b lo hi _ =>
  ⟨exec_stores (i := .staZp b) rfl, exec_stores (i := .staZpx b) rfl, exec_stores (i := .staAbs lo hi) rfl,
    exec_stores (i := .staAbsx lo hi) rfl, exec_stores (i := .staAbsy lo hi) rfl, exec_stores (i := .staIndx b) rfl,
    exec_stores (i := .staIndy b) rfl⟩

/-- Settles O30: each opcode's step is that of its STA form, with the operand bytes after the opcode. -/
theorem staOpcodesStep : Obligations.StaOpcodesStep := by
  intro s c1 abs
  let c2 := s.code 2
  exact ⟨step_stores (.staZp c1) rfl ⟨_, rfl⟩, step_stores (.staZpx c1) rfl ⟨_, rfl⟩,
    step_stores (.staAbs c1 c2) rfl ⟨_, rfl⟩, step_stores (.staAbsx c1 c2) rfl ⟨_, rfl⟩,
    step_stores (.staAbsy c1 c2) rfl ⟨_, rfl⟩, step_stores (.staIndx c1) rfl ⟨_, rfl⟩,
    step_stores (.staIndy c1) rfl ⟨_, rfl⟩⟩

end Sys2Proof.Machine
end

section
/-! SUPPORT. BRK and the unknown opcodes (44_brk_unknown.md): the meaning of BRK, its whole step, and the state that the step
of an unknown opcode leaves; and the statements this settles. -/

namespace Sys2Proof.Machine

/-! ## BRK (R130) -/

/-- The meaning of BRK, from every state: B is set, and nothing is charged. -/
theorem exec_brk (s : State) : ∃ t, exec .brk s = .next t ∧ BreakEffect s t ∧ ExecFrame 0 s t := by
  obtain ⟨t, ht, heffect, hframe, -⟩ := execBrk_spec s
  exact ⟨t, ht, heffect, hframe⟩

/-- The whole step of BRK, by its opcode byte: it has no operand bytes, and its charge is the base cost alone. -/
theorem step_brk {s : State} (hr : s.Running) (hop : s.code 0 = 0x00) :
    ∃ t, step s = .next t ∧ BreakEffect s t ∧ StepFrame 1 7 s t := by
  have hcode : encode .brk = (List.range Instr.brk.length).map s.code := code_of_opcode hop List.nil_prefix
  have hcost : config.baseCycles (s.code 0) = 7 := by rw [hop]; rfl
  obtain ⟨t, ht, heffect, hframe⟩ := exec_brk (s.afterFetch .brk)
  exact ⟨t, (step_of_code hr hcode).trans ht, heffect.of_afterFetch, hcost ▸ hframe.stepFrame⟩

/-! ## Unknown opcodes (R131) -/

/-- An unknown opcode has no base cost, so its step leaves CYC as it was. -/
theorem afterUnknown_eq {s : State} (hu : unknownByte (s.code 0) = true) :
    s.afterUnknown = { s with pc := s.pc + 1, out := ⟨some ⟨s.code 0, s.pc⟩, some ⟨s.code 0, s.pc⟩⟩ } := by
  rw [State.afterUnknown, baseCycles_of_unknownByte _ hu]
  rfl

/-! ## The statements -/

/-- Settles O26: BRK's arm of `exec` is the halt. -/
theorem execBrkSetsBAlone : Obligations.ExecBrkSetsBAlone := exec_brk

/-- Settles O31: the step of BRK leaves the engine Halted, where no step is enabled, and reset clears B. -/
theorem brkOpcodeStepHalts : Obligations.BrkOpcodeStepHalts := by
  intro s hr hop
  obtain ⟨t, ht, heffect, hframe⟩ := step_brk hr hop
  exact ⟨t, ht, heffect, hframe, step_halted heffect.halted, applyReset_running t⟩

/-- Settles O32: the step of an unknown opcode, at its base cost 0. -/
theorem unknownOpcodeStepSkipsOneByte : Obligations.UnknownOpcodeStepSkipsOneByte := by
  intro s hr hu
  rw [step_of_unknown hr hu, afterUnknown_eq hu]

end Sys2Proof.Machine
end

section
/-! SUPPORT. Runs of many steps (60_exceptions.md): what a run does at its first state, Running or Halted; and the statement
this settles. -/

namespace Sys2Proof.Machine

/-! ## Runs (R140, R170, R171) -/

/-- A step that answers a next state leaves the rest of the run to that state. -/
theorem run_succ_of_next {M : Host.Core} {s t : M.State} (h : M.step s = .next t) (k : Nat) :
    M.run (k + 1) s = M.run k t := by
  simp only [Host.Core.run, h]

/-- A step that faults ends the run with its fault. -/
theorem run_succ_of_fault {M : Host.Core} {s : M.State} {r : M.Fault} (h : M.step s = .fault r) (k : Nat) :
    M.run (k + 1) s = .fault r := by
  simp only [Host.Core.run, h]

/-- A run of one step or more from a Halted state is the named stop. -/
theorem run_succ_of_halted {s : State} (h : s.halted = true) (k : Nat) : core.run (k + 1) s = .fault .halted :=
  run_succ_of_fault (M := core) (step_halted h) k

/-! ## The statement -/

/-- Settles O45, by induction on the number of steps: a Halted first state is itself the earlier Halted state, and a Running
one steps to a state from which the rest of the run is as claimed. -/
theorem runStopsOnlyAfterBreak : Obligations.RunStopsOnlyAfterBreak := by
  intro s k
  induction k generalizing s with
  | zero => exact .inl ⟨s, rfl⟩
  | succ k ih =>
    cases hb : s.halted with
    | true => exact .inr ⟨run_succ_of_halted hb k, 0, k.succ_pos, s, rfl, hb⟩
    | false =>
      obtain ⟨s', hstep⟩ := step_next hb
      have hrest (n : Nat) : core.run (n + 1) s = core.run n s' := run_succ_of_next (M := core) hstep n
      rw [hrest]
      rcases ih s' with hgoes | ⟨hstop, j, hj, t, hrun, hhalted⟩
      · exact .inl hgoes
      · exact .inr ⟨hstop, j + 1, Nat.succ_lt_succ hj, t, (hrest j).trans hrun, hhalted⟩

end Sys2Proof.Machine
end

section
/-! SUPPORT. Reset (70_reset_and_hazards.md): reset depends on memory alone, no step lowers CYC, and no meaning clears B; and
the statement this settles. -/

namespace Sys2Proof.Machine

/-! ## Reset forgets (R160, R161) -/

/-- Reset assigns every field but memory, which it keeps. -/
theorem applyReset_eq_of_mem_eq {s s' : State} (h : s.mem = s'.mem) : s.applyReset = s'.applyReset := by
  rw [State.applyReset, State.applyReset, h]

/-! ## What only reset undoes (R22, R161) -/

/-- A step adds its charge to CYC. -/
theorem cyc_le_of_step {s t : State} (h : step s = .next t) : s.cyc ≤ t.cyc := by
  rw [step_cyc h, Nat.add_assoc]
  exact Nat.le_add_right _ _

/-- A load writes Z and N alone, a store writes no flag, and BRK sets B. -/
theorem exec_keeps_b_set {i : Instr} {s t : State} (h : exec i s = .next t) (hb : s.flag .b = true) : t.flag .b = true := by
  rcases exec_inv h with ⟨r, v, c, -, e, -⟩ | ⟨ea, -, e, -⟩ | ⟨-, e, -⟩
  · exact (e.flags .b (by decide)).trans hb
  · exact (flag_of_sr_eq e.status .b).trans hb
  · exact e.halted

/-! ## The statement -/

/-- Settles O2: reset depends on memory alone and keeps it, and the two lemmas above say what steps and meanings do. -/
theorem resetForgetsAndAloneLowersCycOrClearsB : Obligations.ResetForgetsAndAloneLowersCycOrClearsB :=
  ⟨fun _ _ => applyReset_eq_of_mem_eq, fun s => applyReset_eq_of_mem_eq (applyReset_mem s), fun _ _ => cyc_le_of_step,
    fun _ _ _ => exec_keeps_b_set⟩

end Sys2Proof.Machine
end
